-- ==== Sys2Proof/Word.lean ====
section
/-! DEFINITION. The word type of the CORE: registers, memory cells, opcodes and operands are all one byte
(spec/00_scope.md R9, spec/10_state.md R31, spec/20_memory.md R50).  Addresses and the program counter are natural
numbers, because the spec computes `pc + i` and `pc + len` without reduction (R37, R54). -/

namespace Sys2Proof

/-- An 8-bit value: a register, a memory cell, an opcode byte, an operand byte (R9, R31, R50). -/
abbrev Byte := BitVec 8

end Sys2Proof
end

