-- ==== Sys2Proof/Config.lean ====
section
/-! DEFINITION. The implementation parameters of the CORE (spec/00_scope.md R9).  One of them is open,
SPECULATIVE_OPERAND_READ; every other row of R9's table is a fixed value of this hardware. -/

namespace Sys2Proof

/-- The open parameters of the CORE.  R9: "A model takes SPECULATIVE_OPERAND_READ as an argument". -/
structure Config where
  /-- SPECULATIVE_OPERAND_READ (R9, R93, spec/92_eei_decisions.md D5): `true` reads both bytes after the opcode
  before decoding, whatever the opcode; `false` reads exactly the operand bytes the opcode has. -/
  speculativeOperandRead : Bool
deriving DecidableEq, Repr

/-- The spec's default setting, SPECULATIVE_OPERAND_READ = `false` (R9, D5).  `Machine.step` uses it; a claim for
either setting quantifies over `Config` and speaks of `Machine.stepWith`.  DESIGN CHOICE, unsafe: assumption 1. -/
def Config.default : Config := { speculativeOperandRead := false }

/-- MEM_SIZE: number of memory cells (R9). -/
abbrev Config.memSize : Nat := 256

/-- NREGS: number of registers (R9). -/
abbrev Config.numRegs : Nat := 8

/-- SP_RESET: reset value of register 7 (R9, R33). -/
abbrev Config.spReset : Byte := 0xF4#8

/-- PC_RESET (R9, R35). -/
abbrev Config.pcReset : Nat := 0

/-- LOAD_BASE: address of the first loaded byte (R9, R193). -/
abbrev Config.loadBase : Nat := 0

end Sys2Proof
end

