-- ==== Sys2Proof/Syntax.lean ====
section
/-! DEFINITION. The instructions of the CORE ISA: one constructor per row of spec/opcode_table.json
(spec/30_encoding.md R74), with the operand BYTES as fields.  An operand is "a byte following an opcode" (R19, R73)
and a register-operand byte is consumed whatever its value (R78): an instruction that carries one above 7 exists
and raises RegisterIndexFault (R34).  `Instr.wf` (WellFormed.lean) says which instructions carry legal operands. -/

namespace Sys2Proof

/-- The names of the 8 registers (R30).  `r7` is the stack pointer (R33). -/
inductive Reg where
  | r0 | r1 | r2 | r3 | r4 | r5 | r6 | r7
deriving DecidableEq, Repr

/-- The 9 instructions (R74).  `ra` and `rb` are register-operand bytes, `imm` is the immediate byte (R17). -/
inductive Instr where
  /-- HALT, format N (R99). -/
  | halt
  /-- LOAD_IMMEDIATE ra,imm, format RI (R110). -/
  | loadImmediate (ra imm : Byte)
  /-- PRINT_REGISTER ra, format R (R111). -/
  | printRegister (ra : Byte)
  /-- MULTIPLY ra,rb, format RR (R124). -/
  | multiply (ra rb : Byte)
  /-- ADD ra,rb, format RR (R123). -/
  | add (ra rb : Byte)
  /-- PUSH ra, format R (R141). -/
  | push (ra : Byte)
  /-- POP ra, format R (R142). -/
  | pop (ra : Byte)
  /-- CALL ra, format R (R150). -/
  | call (ra : Byte)
  /-- RETURN, format N (R151). -/
  | ret
deriving DecidableEq, Repr

end Sys2Proof
end

