-- ==== Sys2Proof/WellFormed.lean ====
section
/-! DEFINITION. Which instructions carry legal operands: every register-operand byte is 0 to 7
(spec/10_state.md R34, spec/30_encoding.md R72 and R73).  The immediate has no illegal value (R78).  An instruction
that is not well formed still decodes and runs: its meaning raises RegisterIndexFault (R94, R163). -/

namespace Sys2Proof

/-- A register-operand byte names a register: its value is 0 to 7, never reduced modulo 8 (R34, R73). -/
def isRegisterIndex (b : Byte) : Bool := decide (b.toNat < Config.numRegs)

/-- Every register operand of the instruction is legal: formats R and RI check `b1`, format RR checks `b1` and `b2`
(R94). -/
def Instr.wf : Instr → Bool
  | .halt => true
  | .loadImmediate ra _ => isRegisterIndex ra
  | .printRegister ra => isRegisterIndex ra
  | .multiply ra rb => isRegisterIndex ra && isRegisterIndex rb
  | .add ra rb => isRegisterIndex ra && isRegisterIndex rb
  | .push ra => isRegisterIndex ra
  | .pop ra => isRegisterIndex ra
  | .call ra => isRegisterIndex ra
  | .ret => true

end Sys2Proof
end

