-- ==== Sys2Proof/Decode.lean ====
section
/-! DEFINITION. The decoder, total on any list of bytes and rejecting by name, and after it the encoder
(spec/30_encoding.md).  The decoder is written from the binary column of R74's table, the encoder from its
hexadecimal column and the formats of R72, so that the round trip compares two transcriptions. -/

namespace Sys2Proof

/-- The 9 recognised opcodes (R74). -/
inductive Opcode where
  | halt | loadImmediate | printRegister | multiply | add | push | pop | call | ret
deriving DecidableEq, Repr

/-- The four formats (R72). -/
inductive Format where
  | N | R | RI | RR
deriving DecidableEq, Repr

/-- Why a list of bytes is no instruction. -/
inductive DecodeError where
  /-- The list is empty: there is no opcode byte. -/
  | noOpcode
  /-- The first byte is none of the 9 opcodes: an unrecognized instruction (R76). -/
  | illegalOpcode (b0 : Byte)
  /-- The opcode is legal and the list ends before its operand byte number `i`, 1 or 2 (R70, R71). -/
  | missingOperand (i : Nat)
deriving DecidableEq, Repr

/-- Exact match of all 8 bits of `b0` against the 9 opcodes (R74, R75); every other byte is an unrecognized
instruction (R76). -/
def opcodeOf? (b0 : Byte) : Option Opcode :=
  if b0 = 0b00000001#8 then some .halt
  else if b0 = 0b10000010#8 then some .loadImmediate
  else if b0 = 0b01000111#8 then some .printRegister
  else if b0 = 0b10100010#8 then some .multiply
  else if b0 = 0b10100000#8 then some .add
  else if b0 = 0b01000101#8 then some .push
  else if b0 = 0b01000110#8 then some .pop
  else if b0 = 0b01010000#8 then some .call
  else if b0 = 0b00010001#8 then some .ret
  else none

/-- The format of an opcode (R72, R74). -/
def formatOf : Opcode → Format
  | .halt => .N
  | .loadImmediate => .RI
  | .printRegister => .R
  | .multiply => .RR
  | .add => .RR
  | .push => .R
  | .pop => .R
  | .call => .R
  | .ret => .N

/-- The number of operand bytes of a format (R71, R72); the instruction's length is one more. -/
def operandCount : Format → Nat
  | .N => 0
  | .R => 1
  | .RI => 2
  | .RR => 2

/-- An instruction with one operand byte, read from the bytes after the opcode (R70). -/
def decodeOne (mk : Byte → Instr) : List Byte → Except DecodeError (Instr × List Byte)
  | [] => .error (.missingOperand 1)
  | b1 :: rest => .ok (mk b1, rest)

/-- An instruction with two operand bytes, in increasing address order (R56, R70). -/
def decodeTwo (mk : Byte → Byte → Instr) : List Byte → Except DecodeError (Instr × List Byte)
  | [] => .error (.missingOperand 1)
  | [_] => .error (.missingOperand 2)
  | b1 :: b2 :: rest => .ok (mk b1 b2, rest)

/-- The operand bytes of an opcode, and the instruction they make.  Operand bytes are consumed whatever their values
(R78). -/
def decodeOperands (op : Opcode) (bytes : List Byte) : Except DecodeError (Instr × List Byte) :=
  match op with
  | .halt => .ok (.halt, bytes)
  | .loadImmediate => decodeTwo .loadImmediate bytes
  | .printRegister => decodeOne .printRegister bytes
  | .multiply => decodeTwo .multiply bytes
  | .add => decodeTwo .add bytes
  | .push => decodeOne .push bytes
  | .pop => decodeOne .pop bytes
  | .call => decodeOne .call bytes
  | .ret => .ok (.ret, bytes)

/-- The instruction at the front of a list of bytes, in increasing address order, with the bytes after it (R70, R71,
R74). -/
def decode : List Byte → Except DecodeError (Instr × List Byte)
  | [] => .error .noOpcode
  | b0 :: bytes =>
    match opcodeOf? b0 with
    | none => .error (.illegalOpcode b0)
    | some op => decodeOperands op bytes

/-- The bytes of an instruction, in increasing address order (R72, R74). -/
def encode : Instr → List Byte
  | .halt => [0x01#8]
  | .loadImmediate ra imm => [0x82#8, ra, imm]
  | .printRegister ra => [0x47#8, ra]
  | .multiply ra rb => [0xA2#8, ra, rb]
  | .add ra rb => [0xA0#8, ra, rb]
  | .push ra => [0x45#8, ra]
  | .pop ra => [0x46#8, ra]
  | .call ra => [0x50#8, ra]
  | .ret => [0x11#8]

/-- The opcode an instruction is written with (R74). -/
def opcodeOfInstr : Instr → Opcode
  | .halt => .halt
  | .loadImmediate _ _ => .loadImmediate
  | .printRegister _ => .printRegister
  | .multiply _ _ => .multiply
  | .add _ _ => .add
  | .push _ => .push
  | .pop _ => .pop
  | .call _ => .call
  | .ret => .ret

/-- The bytes of a word numbered as spec/opcode_table.json numbers it: the first byte is bits 7..0, the second bits
15..8, the third bits 23..16; every bit from `nbits` up is 0.  Three bytes is the longest instruction (R71). -/
def tableWordBytes (nbits w : Nat) : List Byte :=
  [BitVec.ofNat 8 (w % 2 ^ nbits), BitVec.ofNat 8 (w % 2 ^ nbits / 256),
    BitVec.ofNat 8 (w % 2 ^ nbits / 65536)]

/-- The instruction the decoder reads from a word of the opcode table; `none` where it rejects. -/
def decodeTableWord (nbits w : Nat) : Option Instr :=
  match decode (tableWordBytes nbits w) with
  | .ok (i, _) => some i
  | .error _ => none

end Sys2Proof
end

