-- ==== Sys2Proof/Machine/State.lean ====
section
/-! DEFINITION. The complete architectural state of the CORE (spec/10_state.md), as plain data, and its reset value
(R45, R190).  "Nothing else is state."  There are no flags (R41), no control registers (R42), no other register file
(R43) and no hidden state (R44). -/

namespace Sys2Proof.Machine

/-- The register file: 8 eight-bit registers, none hardwired, no banks or aliases but SP = R7 (R30, R31). -/
structure RegFile where
  r0 : Byte
  r1 : Byte
  r2 : Byte
  r3 : Byte
  r4 : Byte
  r5 : Byte
  r6 : Byte
  /-- The stack pointer SP (R33). -/
  r7 : Byte
deriving DecidableEq, Repr

/-- The run state of the Execution Engine (R38).  HALTED and FAULTED are terminal. -/
inductive RunState where
  | running
  | halted
  | faulted
deriving DecidableEq, Repr

/-- The fault kinds with their `info` (spec/60_exceptions.md, table before R161). -/
inductive FaultKind where
  /-- Code 1: the byte fetched at `pc` is not one of the 9 opcodes; info is that byte (R161). -/
  | illegalOpcode (b0 : Byte)
  /-- Code 2: a memory access above 255, at opcode fetch or operand fetch; info is the address (R162). -/
  | addressFault (addr : Nat)
  /-- Code 3: a register-operand byte above 7; info is that byte (R163). -/
  | registerIndexFault (b : Byte)
  /-- Code 4: a CALL whose return address exceeds 255; info is the return address (R164). -/
  | returnAddressFault (r : Nat)
  /-- Code 5: an ALU operation that is not ADD or MULTIPLY; raised by no byte sequence (R122, R165). -/
  | aluUnsupported
deriving DecidableEq, Repr

/-- The fault record (R39): the kind with its info, and the address of the faulting instruction's opcode byte. -/
structure FaultRecord where
  kind : FaultKind
  fpc : Nat
deriving DecidableEq, Repr

/-- Memory, as a list of (address, byte) pairs in one canonical form: addresses strictly rising and below 256, and
no entry that holds 0, which is what an unlisted address reads as (R50: "zero-filled").  `Memory.wf` (Ops.lean) says
so. -/
abbrev Memory := List Host.Cell

/-- The machine's state: the tuple at the head of spec/10_state.md. -/
structure State where
  /-- `x[0..7]` (R30 to R34). -/
  regs : RegFile
  /-- The program counter, a natural number (R35 to R37). -/
  pc : Nat
  /-- `M[0..255]` (R50). -/
  mem : Memory
  /-- The run state (R38). -/
  status : RunState
  /-- The fault record, `none` unless FAULTED (R39). -/
  fault : Option FaultRecord
  /-- The output events so far, oldest first (R40). -/
  out : List Byte
deriving DecidableEq, Repr

/-- Why the machine takes no step (`Host.Outcome.fault`): how the model writes "no step exists" (R90; DESIGN CHOICE,
safe: assumption 2).  These are not the spec's fault kinds: a raised fault kind is a NEXT state in FAULTED (R166). -/
inductive Fault where
  /-- Raised by `stepWith` in a state whose run state is HALTED: "HALTED is terminal", no step exists (R90).  Safe:
  the spec gives no behaviour there. -/
  | engineHalted
  /-- Raised by `stepWith` in a state whose run state is FAULTED: "fatal, the run terminates", no step exists (R90,
  R168).  Safe: the spec gives no behaviour there. -/
  | engineFaulted
deriving DecidableEq, Repr

/-- Why the model gives no meaning (`Host.Outcome.refused`). -/
inductive Refusal where
  /-- An instruction without a meaning, by its mnemonic.  No arm of `exec` answers with it.  Safe. -/
  | notModelled (mnemonic : String)
  /-- Raised by `load`: a program image of `n` > 256 bytes is the loader's error and no run starts (R193, U11).
  Safe: no state follows. -/
  | imageTooLong (n : Nat)
deriving DecidableEq, Repr

/-- What an instruction or a step answers. -/
abbrev Result := Host.Outcome State Fault Refusal

/-- The reset value of the register file: R0 to R6 are 0 and the stack pointer R7 is 0xF4 (R32, R33, R45). -/
def RegFile.reset : RegFile :=
  { r0 := 0, r1 := 0, r2 := 0, r3 := 0, r4 := 0, r5 := 0, r6 := 0, r7 := Config.spReset }

/-- The machine right after reset (R45, R190): every value is the spec's, none is unspecified. -/
def State.reset : State :=
  { regs := RegFile.reset, pc := Config.pcReset, mem := [], status := .running, fault := none, out := [] }

end Sys2Proof.Machine
end

