-- ==== Sys2Proof/Machine/Ops.lean ====
section
/-! DEFINITION. The named operations over registers, memory, the program counter and the output port
(spec/00_scope.md R16), and raising a fault (spec/60_exceptions.md R166), the one shared operation by which a step
enters FAULTED.  There is no return from a fault: no handler, no return-from-trap instruction; only reset leaves
FAULTED (R168), which is `assertReset` in HostPort.lean. -/

namespace Sys2Proof.Machine

/-! ### Registers -/

/-- Read of register `r`. -/
def RegFile.get (f : RegFile) : Reg → Byte
  | .r0 => f.r0
  | .r1 => f.r1
  | .r2 => f.r2
  | .r3 => f.r3
  | .r4 => f.r4
  | .r5 => f.r5
  | .r6 => f.r6
  | .r7 => f.r7

/-- The register file after a write of register `r`; no register is hardwired (R30). -/
def RegFile.set (f : RegFile) (r : Reg) (v : Byte) : RegFile :=
  match r with
  | .r0 => { f with r0 := v }
  | .r1 => { f with r1 := v }
  | .r2 => { f with r2 := v }
  | .r3 => { f with r3 := v }
  | .r4 => { f with r4 := v }
  | .r5 => { f with r5 := v }
  | .r6 => { f with r6 := v }
  | .r7 => { f with r7 := v }

/-- `x[r]` (R16). -/
def readReg (r : Reg) (s : State) : Byte := s.regs.get r

/-- `x[r] <- v`, for a value that is already one byte (R16). -/
def writeReg (r : Reg) (v : Byte) (s : State) : State := { s with regs := s.regs.set r v }

/-- `trunc8(v)`: `v mod 256` (R16, R31). -/
def trunc8 (v : Nat) : Byte := BitVec.ofNat 8 v

/-! ### Program counter, run state, output -/

/-- `pc <- t` (R16). -/
def setPc (t : Nat) (s : State) : State := { s with pc := t }

/-- `status <- st` (R16). -/
def setStatus (st : RunState) (s : State) : State := { s with status := st }

/-- `emit(v)`: appends the value to the output events, oldest first (R16, R40). -/
def emit (v : Byte) (s : State) : State := { s with out := s.out ++ [v] }

/-! ### Memory -/

/-- What an address the list does not hold reads as: 0, the reset value of every cell (R45, R50). -/
def unlistedByte : Byte := 0#8

/-- `M[a]`: the value listed for the address, else the reset fill. -/
def Memory.read : Memory → Nat → Byte
  | [], _ => unlistedByte
  | (k, v) :: m, a => if k = a then v else Memory.read m a

/-- The memory after `M[a] <- v`, in canonical form again: a write of the reset fill removes the entry. -/
def Memory.write : Memory → Nat → Byte → Memory
  | [], a, v => if v = unlistedByte then [] else [(a, v)]
  | (k, w) :: m, a, v =>
    if k < a then (k, w) :: Memory.write m a v
    else if k = a then (if v = unlistedByte then m else (a, v) :: m)
    else (if v = unlistedByte then (k, w) :: m else (a, v) :: (k, w) :: m)

/-- The canonical form from address `lo` up: addresses strictly rising, at least `lo` and below MEM_SIZE (R50), and
no entry that an unlisted address would read as. -/
def Memory.wfFrom : Nat → Memory → Bool
  | _, [] => true
  | lo, (k, v) :: m =>
    decide (lo ≤ k) && decide (k < Config.memSize) && decide (v ≠ unlistedByte) && Memory.wfFrom (k + 1) m

/-- The canonical form of a memory. -/
def Memory.wf (m : Memory) : Bool := Memory.wfFrom 0 m

/-- An address the memory has: 0 to 255 (R50, R53). -/
def inMemory (a : Nat) : Bool := decide (a < Config.memSize)

/-- `MemRead(a, 1)` (R53): checked, with AddressFault above 255. -/
def memRead (a : Nat) (s : State) : Except FaultKind Byte :=
  if inMemory a then .ok (Memory.read s.mem a) else .error (.addressFault a)

/-- `MemWrite(a, 1, v)` (R53): checked, with AddressFault above 255 and no write then. -/
def memWrite (a : Nat) (v : Byte) (s : State) : Except FaultKind State :=
  if inMemory a then .ok { s with mem := Memory.write s.mem a v } else .error (.addressFault a)

/-! ### The stack pointer -/

/-- The address the stack pointer holds, always 0 to 255 (R54). -/
def spAddress (s : State) : Nat := (readReg .r7 s).toNat

/-- `SP <- SP - 1`, modulo 256 (R61, R141). -/
def decSp (s : State) : State := writeReg .r7 (readReg .r7 s - 1#8) s

/-- `SP <- SP + 1`, modulo 256 (R61, R142). -/
def incSp (s : State) : State := writeReg .r7 (readReg .r7 s + 1#8) s

/-- The address PUSH and CALL store to: the decremented stack pointer (R52, R54). -/
def pushAddress (s : State) : Nat := spAddress (decSp s)

/-! ### Faults -/

/-- The numeric code of a fault kind (spec/60_exceptions.md, table before R161; D17). -/
def FaultKind.code : FaultKind → Nat
  | .illegalOpcode _ => 1
  | .addressFault _ => 2
  | .registerIndexFault _ => 3
  | .returnAddressFault _ => 4
  | .aluUnsupported => 5

/-- The `info` value of a fault kind (R39 and the table before R161). -/
def FaultKind.info : FaultKind → Option Nat
  | .illegalOpcode b0 => some b0.toNat
  | .addressFault a => some a
  | .registerIndexFault b => some b.toNat
  | .returnAddressFault r => some r
  | .aluUnsupported => none

/-- The state after fault entry (R166): its only effects are `status <- FAULTED` and `fault <- (F, pc, info)`. -/
def enterFault (f : FaultKind) (s : State) : State :=
  { s with status := .faulted, fault := some { kind := f, fpc := s.pc } }

/-- `raise F(info)` (R16, R166): the step ends at once, from the state `s` it began in. -/
def raise (f : FaultKind) (s : State) : Result := .next (enterFault f s)

/-- The end of an instruction that began in `s`: its final state if it completed, fault entry FROM `s` if a check
raised a fault.  Every fault is therefore precise (R166). -/
def complete (s : State) (r : Except FaultKind State) : Result :=
  match r with
  | .ok t => .next t
  | .error f => raise f s

end Sys2Proof.Machine
end

