-- ==== Sys2Proof/Machine/Operands.lean ====
section
/-! DEFINITION. Operand forms (spec/30_encoding.md R73): the register operand, a whole byte of which 0 to 7 name R0
to R7, and the immediate, a whole byte taken as it is.  The immediate needs no operation: it is neither extended,
scaled nor shifted. -/

namespace Sys2Proof.Machine

/-- The register a register-operand byte names: 0 to 7 name R0 to R7, every other byte names none (R34, R73). -/
def regOfByte? (b : Byte) : Option Reg :=
  match b.toNat with
  | 0 => some .r0
  | 1 => some .r1
  | 2 => some .r2
  | 3 => some .r3
  | 4 => some .r4
  | 5 => some .r5
  | 6 => some .r6
  | 7 => some .r7
  | _ => none

/-- The operand byte that names a register (R73, R80). -/
def byteOfReg : Reg → Byte
  | .r0 => 0#8
  | .r1 => 1#8
  | .r2 => 2#8
  | .r3 => 3#8
  | .r4 => 4#8
  | .r5 => 5#8
  | .r6 => 6#8
  | .r7 => 7#8

/-- The register-operand check (R94): the register the byte names, else RegisterIndexFault with the byte (R163). -/
def registerOperand (b : Byte) : Except FaultKind Reg :=
  match regOfByte? b with
  | some r => .ok r
  | none => .error (.registerIndexFault b)

end Sys2Proof.Machine
end

