-- ==== Sys2Proof/Machine/Alu.lean ====
section
/-! DEFINITION. The ALU and its two instructions ADD and MULTIPLY (spec/42_alu.md). -/

namespace Sys2Proof.Machine

/-- The closed enumeration of ALU operations (R120).  Nothing else can be requested, so `aluUnsupported` is raised by
nothing (R122, R165). -/
inductive AluOp where
  | add
  | multiply
deriving DecidableEq, Repr

/-- The exact result as an unbounded natural number (R121). -/
def aluExact (op : AluOp) (a b : Nat) : Nat :=
  match op with
  | .add => a + b
  | .multiply => a * b

/-- `apply(operation, destination_register, source_register)` (R120): destination := destination op source, both read
before the write, reduced modulo 256 (R121). -/
def aluApply (op : AluOp) (d r : Reg) (s : State) : State :=
  writeReg d (trunc8 (aluExact op (readReg d s).toNat (readReg r s).toNat)) s

/-- ADD (R123). -/
def execAdd (ra rb : Byte) (s : State) : Result :=
  complete s do
    let d ← registerOperand ra
    let r ← registerOperand rb
    return setPc (s.pc + 3) (aluApply .add d r s)

/-- MULTIPLY (R124). -/
def execMultiply (ra rb : Byte) (s : State) : Result :=
  complete s do
    let d ← registerOperand ra
    let r ← registerOperand rb
    return setPc (s.pc + 3) (aluApply .multiply d r s)

end Sys2Proof.Machine
end

