-- ==== Sys2Proof/Machine/CallReturn.lean ====
section
/-! DEFINITION. CALL and RETURN (spec/44_call_return.md). -/

namespace Sys2Proof.Machine

/-- The return address of a CALL: `pc + 2`, or ReturnAddressFault where it does not fit a memory cell (R150, R164). -/
def returnAddress (s : State) : Except FaultKind Byte :=
  if 255 < s.pc + 2 then .error (.returnAddressFault (s.pc + 2)) else .ok (trunc8 (s.pc + 2))

/-- CALL (R150): check the return address, decrement SP, store it, then jump to `x[ra]` read after the decrement. -/
def execCall (ra : Byte) (s : State) : Result :=
  complete s do
    let r ← registerOperand ra
    let link ← returnAddress s
    let s1 := decSp s
    let s2 ← memWrite (spAddress s1) link s1
    return setPc (readReg r s2).toNat s2

/-- RETURN (R151): read the byte at SP, increment SP, jump to the byte. -/
def execRet (s : State) : Result :=
  complete s do
    let t ← memRead (spAddress s) s
    let s1 := incSp s
    return setPc t.toNat s1

end Sys2Proof.Machine
end

