-- ==== Sys2Proof/Machine/Control.lean ====
section
/-! DEFINITION. HALT (spec/40_engine.md R99). -/

namespace Sys2Proof.Machine

/-- HALT (R99): `status <- HALTED`, then `pc <- pc + 1`. -/
def execHalt (s : State) : Result :=
  complete s (.ok (setPc (s.pc + 1) (setStatus .halted s)))

end Sys2Proof.Machine
end

