-- ==== Sys2Proof/Machine/Flags.lean ====
section
/-! DEFINITION. Flag computations: there are none.  The CORE has no flags register, no condition codes and no
predicates (spec/10_state.md R41), and "No flags (zero/carry/overflow) are computed or exposed" by the ALU
(spec/42_alu.md R121).  No instruction reads or writes a flag, so this file declares nothing. -/
end

