-- ==== Sys2Proof/Machine/RegisterOutput.lean ====
section
/-! DEFINITION. LOAD_IMMEDIATE and PRINT_REGISTER (spec/41_register_output.md). -/

namespace Sys2Proof.Machine

/-- LOAD_IMMEDIATE (R110). -/
def execLoadImmediate (ra imm : Byte) (s : State) : Result :=
  complete s do
    let r ← registerOperand ra
    return setPc (s.pc + 3) (writeReg r imm s)

/-- PRINT_REGISTER (R111). -/
def execPrintRegister (ra : Byte) (s : State) : Result :=
  complete s do
    let r ← registerOperand ra
    return setPc (s.pc + 2) (emit (readReg r s) s)

end Sys2Proof.Machine
end

