-- ==== Sys2Proof/Machine/Stack.lean ====
section
/-! DEFINITION. PUSH and POP (spec/43_stack.md).  The sub-steps happen in the order written and a later one sees the
writes of the earlier ones (R140), which fixes PUSH r7 and POP r7. -/

namespace Sys2Proof.Machine

/-- PUSH (R141): decrement SP, then store `x[ra]`, both read after the decrement. -/
def execPush (ra : Byte) (s : State) : Result :=
  complete s do
    let r ← registerOperand ra
    let s1 := decSp s
    let s2 ← memWrite (spAddress s1) (readReg r s1) s1
    return setPc (s.pc + 2) s2

/-- POP (R142): write the byte at SP into `x[ra]`, then increment SP, read after that write. -/
def execPop (ra : Byte) (s : State) : Result :=
  complete s do
    let r ← registerOperand ra
    let v ← memRead (spAddress s) s
    let s1 := writeReg r v s
    let s2 := incSp s1
    return setPc (s.pc + 2) s2

end Sys2Proof.Machine
end

