-- ==== Sys2Proof/Machine/Dispatch.lean ====
section
/-! DEFINITION. The meaning of each instruction: `execute(b0, b1, b2)` of spec/40_engine.md R97, with the register
check R94 that stands before it there.  It does not look at the run state: `stepWith` does, before it fetches
(R90; DESIGN CHOICE, safe: assumption 6). -/

namespace Sys2Proof.Machine

-- One arm per constructor of Instr (R74, R95).
def exec (i : Instr) (s : State) : Host.Outcome State Fault Refusal :=
  match i with
  | .halt => Sys2Proof.Machine.execHalt s
  | .loadImmediate ra imm => Sys2Proof.Machine.execLoadImmediate ra imm s
  | .printRegister ra => Sys2Proof.Machine.execPrintRegister ra s
  | .multiply ra rb => Sys2Proof.Machine.execMultiply ra rb s
  | .add ra rb => Sys2Proof.Machine.execAdd ra rb s
  | .push ra => Sys2Proof.Machine.execPush ra s
  | .pop ra => Sys2Proof.Machine.execPop ra s
  | .call ra => Sys2Proof.Machine.execCall ra s
  | .ret => Sys2Proof.Machine.execRet s

end Sys2Proof.Machine
end

