-- ==== Sys2Proof/Machine/Engine.lean ====
section
/-! DEFINITION. The fetch-decode-execute step (spec/40_engine.md R90 to R98), for either setting of
SPECULATIVE_OPERAND_READ, and running under fuel. -/

namespace Sys2Proof.Machine

/-- `n` bytes from address `a` up, in address order; the first address above 255 raises AddressFault (R93). -/
def fetchBytes (s : State) (a : Nat) : Nat → Except FaultKind (List Byte)
  | 0 => .ok []
  | n + 1 => do
    let b ← memRead a s
    let bs ← fetchBytes s (a + 1) n
    return b :: bs

/-- How many bytes after the opcode are read BEFORE decode: both with SPECULATIVE_OPERAND_READ, none without it
(R93). -/
def speculativeCount (c : Config) : Nat := if c.speculativeOperandRead then 2 else 0

/-- The opcode of a byte, else IllegalOpcode with the byte (R92, R161). -/
def decodeOpcode (b0 : Byte) : Except FaultKind Opcode :=
  match opcodeOf? b0 with
  | some op => .ok op
  | none => .error (.illegalOpcode b0)

/-- The fault a rejection of the decoder stands for, for an opcode byte at `pc` (R91 to R93).  `fetch` gives the
decoder exactly the bytes the opcode has, so it never sees one. -/
def decodeFault (pc : Nat) : DecodeError → FaultKind
  | .noOpcode => .addressFault pc
  | .illegalOpcode b0 => .illegalOpcode b0
  | .missingOperand i => .addressFault (pc + i)

/-- The instruction of the bytes fetched. -/
def decodeFetched (pc : Nat) (bytes : List Byte) : Except FaultKind Instr :=
  match decode bytes with
  | .ok (i, _) => .ok i
  | .error e => .error (decodeFault pc e)

/-- Opcode fetch (R91), the speculative operand read (R93), decode (R92) and operand fetch (R93), in the order of
R97. -/
def fetch (c : Config) (s : State) : Except FaultKind Instr := do
  let b0 ← memRead s.pc s
  let _ ← fetchBytes s (s.pc + 1) (speculativeCount c)
  let op ← decodeOpcode b0
  let operands ← fetchBytes s (s.pc + 1) (operandCount (formatOf op))
  decodeFetched s.pc (b0 :: operands)

/-- The whole step (R97): it exists only while the engine is RUNNING (R90; assumption 2). -/
def stepWith (c : Config) (s : State) : Result :=
  match s.status with
  | .halted => .fault .engineHalted
  | .faulted => .fault .engineFaulted
  | .running =>
    match fetch c s with
    | .error f => raise f s
    | .ok i => exec i s

/-- The result of a run under fuel.  Running out of fuel is "not yet ended", never a final state (R98, R195). -/
inductive RunResult where
  /-- The run state left RUNNING: HALTED or FAULTED. -/
  | ended (s : State)
  /-- The fuel ran out in a RUNNING state. -/
  | notEnded (s : State)
deriving DecidableEq, Repr

/-- Steps until the run state leaves RUNNING (R192), at most `fuel` of them. -/
def runWith (c : Config) : Nat → State → RunResult
  | 0, s => if s.status = .running then .notEnded s else .ended s
  | fuel + 1, s =>
    match stepWith c s with
    | .next t => runWith c fuel t
    | .fault _ => .ended s
    | .refused _ => .ended s

end Sys2Proof.Machine
end

