-- ==== Sys2Proof/Machine/HostPort.lean ====
section
/-! DEFINITION. The interfaces of the block to its surroundings (spec/00_scope.md section 5): the load port (R11,
R193), the reset input (R14, R190), the status interface (R13) and the host's reading of a stop (R172). -/

namespace Sys2Proof.Machine

/-- The memory after the bytes are written to consecutive addresses from `a` up (R193). -/
def storeBytes (m : Memory) (a : Nat) : List Byte → Memory
  | [] => m
  | b :: bs => storeBytes (Memory.write m a b) (a + 1) bs

/-- The load port (R11, R193): `M[i] <- P[i]` from address 0 up; nothing else is touched.  A longer image than the
memory is the loader's error and no run starts (D15, U11). -/
def load (image : List Byte) (s : State) : Result :=
  if image.length ≤ Config.memSize then .next { s with mem := storeBytes s.mem Config.loadBase image }
  else .refused (.imageTooLong image.length)

/-- Reset, then program load: the state before the first step of a run (R192). -/
def boot (image : List Byte) : Result := load image State.reset

/-- The reset input: every piece of state to its reset value, in any run state; nothing survives (R14, R190). -/
def assertReset (_ : State) : State := State.reset

/-- What the status interface shows the host (R13). -/
structure StatusView where
  status : RunState
  fault : Option FaultRecord
  regs : RegFile
  pc : Nat
  mem : Memory
deriving DecidableEq, Repr

/-- The status interface (R13). -/
def statusView (s : State) : StatusView :=
  { status := s.status, fault := s.fault, regs := s.regs, pc := s.pc, mem := s.mem }

/-- The host's exit code for a stopped run: 0 for HALTED, 1 for every fault kind (R172, D18); none while RUNNING. -/
def hostExitCode (s : State) : Option Nat :=
  match s.status with
  | .running => none
  | .halted => some 0
  | .faulted => some 1

/-- The content of the host's diagnostic dump (R172); its text layout is not modelled (N8, U12). -/
structure FaultDump where
  pc : Nat
  nextBytes : List Byte
  regs : RegFile
deriving DecidableEq, Repr

/-- `M[pc]`, `M[pc+1]`, `M[pc+2]`, without those whose address exceeds 255 (R172, D21). -/
def nextBytes (s : State) : List Byte :=
  ([s.pc, s.pc + 1, s.pc + 2].filter inMemory).map (Memory.read s.mem)

/-- The dump the host makes of a FAULTED engine, read from the state the fault left (R172). -/
def faultDump (s : State) : Option FaultDump :=
  match s.status with
  | .faulted => some { pc := s.pc, nextBytes := nextBytes s, regs := s.regs }
  | .running => none
  | .halted => none

end Sys2Proof.Machine
end

