-- ==== Sys2Proof/Machine/Step.lean ====
section
/-! DEFINITION. The step of the CORE at the spec's default setting of SPECULATIVE_OPERAND_READ (spec/00_scope.md R9),
and placing one instruction where it is fetched. -/

namespace Sys2Proof.Machine

/-- One step (R97) with SPECULATIVE_OPERAND_READ = `false`, the spec's default (R9, D5; assumption 1). -/
def step (s : State) : Host.Outcome State Fault Refusal := stepWith Config.default s

/-- The state with an instruction's bytes stored from `pc` up, those that have an address, and the engine RUNNING
with no fault recorded, which the fetch needs (R39, R90).  It stands for the loader (DESIGN CHOICE, safe: assumption
3). -/
def State.withFetchWord (s : State) (nbits w : Nat) : State :=
  { s with
    mem := storeBytes s.mem s.pc ((tableWordBytes nbits w).take (Config.memSize - s.pc))
    status := .running
    fault := none }

end Sys2Proof.Machine
end

