-- ==== Sys2Proof/Safety.lean ====
section
/-! DEFINITION. What claims about runs are stated in: the invariant of the CORE's state, the states a run can reach,
the end of a run and what is observed of it. -/

namespace Sys2Proof.Machine

/-- The fault kinds with the info values that can stand in a fault record (spec/60_exceptions.md, table before R161,
R161 to R165): an unrecognized byte, an address 256 or 257, an operand byte 8 to 255, the return address 256, and
never AluUnsupported. -/
def FaultKind.recordable : FaultKind → Bool
  | .illegalOpcode b0 => (opcodeOf? b0).isNone
  | .addressFault a => decide (a = 256 ∨ a = 257)
  | .registerIndexFault b => decide (8 ≤ b.toNat)
  | .returnAddressFault r => decide (r = 256)
  | .aluUnsupported => false

/-- The invariant of the CORE's state. -/
structure State.Inv (s : State) : Prop where
  /-- The memory is in canonical form, with cells 0 to 255 only (R50). -/
  memory_wf : Memory.wf s.mem = true
  /-- The largest value `pc` can hold is 256 (R37). -/
  pc_le : s.pc ≤ 256
  /-- The fault record is `none` exactly while the engine is RUNNING or HALTED (R39). -/
  fault_none_iff : s.fault = none ↔ s.status ≠ .faulted
  /-- A fault record holds the address of the faulting instruction, which `pc` still holds, and an info value of its
  kind (R39, R161 to R165). -/
  fault_record : ∀ f, s.fault = some f → f.fpc = s.pc ∧ f.kind.recordable = true

/-- The states of the runs of the CORE with setting `c`: after reset and the load of some image, and after every step
(R192). -/
inductive Reachable (c : Config) : State → Prop where
  | boot {image : List Byte} {s : State} (h : boot image = .next s) : Reachable c s
  | step {s t : State} (hs : Reachable c s) (h : stepWith c s = .next t) : Reachable c t

/-- The observation of a finished run (R195). -/
structure Observation where
  status : RunState
  fault : Option FaultRecord
  out : List Byte
  regs : RegFile
  pc : Nat
  mem : Memory
deriving DecidableEq, Repr

/-- What is observed of a run that has ended; a RUNNING state gives no observation (R195). -/
def observation (s : State) : Option Observation :=
  match s.status with
  | .running => none
  | .halted => some { status := s.status, fault := s.fault, out := s.out, regs := s.regs, pc := s.pc, mem := s.mem }
  | .faulted => some { status := s.status, fault := s.fault, out := s.out, regs := s.regs, pc := s.pc, mem := s.mem }

/-- A safe run: one that ended with the clean stop, HALT (R98, R195). -/
def CleanStop (s : State) : Prop := s.status = .halted

end Sys2Proof.Machine
end

