-- ==== Sys2Proof/Certificates/Slice0/Obligations.lean ====
section
/-! DEFINITION. The statements for the provers.  Each one says what the CORE does in the spec's own terms; the
helpers of the first section write those terms out (`x[i]`, fault entry, the opcode table) without the model's own
operations, so that a statement does not repeat the definition it is about.

`stepWith c` is the step for either setting `c` of SPECULATIVE_OPERAND_READ (R9); `step` is the spec's default
setting. -/

namespace Sys2Proof.Claims

open Sys2Proof.Machine

/-- `x[i]` by its number, 0 to 7 (spec/00_scope.md R16); other numbers name no register. -/
def x (s : State) : Nat → Byte
  | 0 => s.regs.r0
  | 1 => s.regs.r1
  | 2 => s.regs.r2
  | 3 => s.regs.r3
  | 4 => s.regs.r4
  | 5 => s.regs.r5
  | 6 => s.regs.r6
  | 7 => s.regs.r7
  | _ => 0#8

/-- `M[a]`. -/
def M (s : State) (a : Nat) : Byte := Memory.read s.mem a

/-- The state after fault entry (spec/60_exceptions.md, section 3): only the run state and the fault record differ. -/
def faulted (f : FaultKind) (s : State) : State :=
  { s with status := .faulted, fault := some { kind := f, fpc := s.pc } }

/-- The opcode table (spec/30_encoding.md R74): opcode byte, operand bytes, and how many of them are register
operands (R72). -/
def opcodeTable : List (Byte × Nat × Nat) :=
  [(0x01#8, 0, 0), (0x82#8, 2, 1), (0x47#8, 1, 1), (0xA2#8, 2, 2), (0xA0#8, 2, 2), (0x45#8, 1, 1), (0x46#8, 1, 1),
    (0x50#8, 1, 1), (0x11#8, 0, 0)]

/-- A byte is one of the 9 opcodes. -/
def Listed (b0 : Byte) : Prop := ∃ n m, (b0, n, m) ∈ opcodeTable

/-- The bytes stand in memory from `pc` up, every one at an address 0 to 255. -/
def StandsAtPc (bytes : List Byte) (s : State) : Prop :=
  ∀ k b, bytes[k]? = some b → s.pc + k ≤ 255 ∧ M s (s.pc + k) = b

/-- The AddressFaults of an instruction with opcode byte `b0` and `n` operand bytes, as each instruction's rule lists
them: at `pc` = 256; at 255 if it has an operand; at 254 if it has two; with SPECULATIVE_OPERAND_READ at 255 and 254
always. -/
def AddressFaults (c : Config) (s : State) (b0 : Byte) (n : Nat) : Prop :=
  s.status = .running →
    (s.pc = 256 → stepWith c s = .next (faulted (.addressFault 256) s)) ∧
    (s.pc = 255 → M s 255 = b0 → (1 ≤ n ∨ c.speculativeOperandRead = true) →
      stepWith c s = .next (faulted (.addressFault 256) s)) ∧
    (s.pc = 254 → M s 254 = b0 → (n = 2 ∨ c.speculativeOperandRead = true) →
      stepWith c s = .next (faulted (.addressFault 256) s))

/-- Every register is unchanged but those whose numbers are listed. -/
def RegistersSameBut (written : List Nat) (s t : State) : Prop := ∀ i, i ≤ 7 → i ∉ written → x t i = x s i

/-- Every byte of memory reads as before. -/
def MemorySame (s t : State) : Prop := ∀ a, M t a = M s a

/-- Every byte of memory reads as before but the one at address `a`. -/
def MemorySameBut (a : Nat) (s t : State) : Prop := ∀ b, b ≠ a → M t b = M s b

/-- The run state and the fault record are unchanged. -/
def RunStateSame (s t : State) : Prop := t.status = s.status ∧ t.fault = s.fault

/-- The two settings of SPECULATIVE_OPERAND_READ. -/
def speculative : Config := { speculativeOperandRead := true }

def nonSpeculative : Config := { speculativeOperandRead := false }

end Sys2Proof.Claims

open Sys2Proof Sys2Proof.Machine Sys2Proof.Claims

/-! ### Encoding -/

/-- Decode and encode agree, in both directions: decoding an encoded instruction gives it back, for every operand
byte and with whatever bytes follow it, and where the decoder answers an instruction the bytes begin with its
encoding, so every word has one meaning (R70 to R75, R78). -/
def Obligations.DecodeAndEncodeAgree : Prop :=
  ∀ (bytes rest : List Byte) (i : Instr), decode bytes = .ok (i, rest) ↔ bytes = encode i ++ rest

/-- The decoder rejects a list of bytes for its first byte exactly when that byte is none of the 9 opcodes (R76; the
spec marks its list of the other 247 bytes derived from the table). -/
def Obligations.UnlistedOpcodesAreRejected : Prop :=
  ∀ (b0 : Byte) (rest : List Byte), decode (b0 :: rest) = .error (.illegalOpcode b0) ↔ ¬ Listed b0

/-- A part of an instruction is no instruction: the decoder names the first byte that is missing (an inference from
R70 and R71; the names are the model's). -/
def Obligations.TruncatedInstructionsAreRejected : Prop :=
  ∀ (i : Instr) (k : Nat), k < (encode i).length →
    decode ((encode i).take k) = .error (if k = 0 then .noOpcode else .missingOperand k)

/-- Words written out from the spec's encodings decode to the instructions they stand for (R74, R83). -/
def Obligations.WrittenWordsDecode : Prop :=
  decode [0b10000010#8, 0b00000000#8, 0b00001000#8] = .ok (.loadImmediate 0 8, []) ∧
  decode [0b01000111#8, 0b00000000#8] = .ok (.printRegister 0, []) ∧
  decode [0b00000001#8] = .ok (.halt, []) ∧
  decode [0b10100010#8, 0#8, 1#8] = .ok (.multiply 0 1, []) ∧
  decode [0b10100000#8, 7#8, 0#8] = .ok (.add 7 0, []) ∧
  decode [0b01000101#8, 2#8] = .ok (.push 2, []) ∧
  decode [0b01000110#8, 2#8] = .ok (.pop 2, []) ∧
  decode [0b01010000#8, 1#8] = .ok (.call 1, []) ∧
  decode [0b00010001#8] = .ok (.ret, [])

/-! ### The step -/

/-- A step runs the decoded instruction (R95, R97): where the bytes at `pc` decode to `i`, the step is `exec i`, which
does all the rest (it moves `pc` itself, R96).  With SPECULATIVE_OPERAND_READ both bytes after the opcode must have an
address (R93).  That `step` is the setting `false` is the model's choice, assumption 1. -/
def Obligations.StepRunsTheDecodedInstruction : Prop :=
  ∀ (c : Config) (s : State) (bytes : List Byte) (i : Instr),
    s.status = .running → StandsAtPc bytes s → decode bytes = .ok (i, []) →
      ((c.speculativeOperandRead = true → s.pc + 2 ≤ 255) → stepWith c s = exec i s) ∧ step s = exec i s

/-- R92: an unrecognized byte at `pc` raises IllegalOpcode; one of the 9 opcodes selects the instruction with its
operand count, whose bytes are the ones at `pc`. -/
def Obligations.OpcodeSelectsTheInstruction : Prop :=
  ∀ (c : Config) (s : State), s.status = .running → s.pc ≤ 255 →
    (c.speculativeOperandRead = true → s.pc + 2 ≤ 255) →
      (¬ Listed (M s s.pc) → stepWith c s = .next (faulted (.illegalOpcode (M s s.pc)) s)) ∧
      (∀ n m, (M s s.pc, n, m) ∈ opcodeTable → s.pc + n ≤ 255 →
        ∃ i, encode i = (List.range (n + 1)).map (fun k => M s (s.pc + k)) ∧ stepWith c s = exec i s)

/-- The engine steps exactly while it is RUNNING.  That no step exists in HALTED and in FAULTED is R90.  That every
RUNNING state has a step with a next state is an inference from R97 and R166: a fault the step raises is fault entry, a
next state in FAULTED (decision D10).  That "no step exists" is read as "no next state" is the model's choice,
assumption 2. -/
def Obligations.EngineStepsExactlyWhileRunning : Prop :=
  ∀ (c : Config) (s : State),
    (s.status = .running → ∃ t, stepWith c s = .next t) ∧
    (s.status = .halted ∨ s.status = .faulted → ¬ ∃ t, stepWith c s = .next t)

/-- The order of the checks of one step, for both settings of SPECULATIVE_OPERAND_READ. The order is the spec's own
decision D11 (with D2, D5, D6, D8), not a sentence of its source. -/
def Obligations.FaultsAreRaisedInTheGivenOrder : Prop :=
  ∀ (c : Config) (s : State), s.status = .running →
    (256 ≤ s.pc → stepWith c s = .next (faulted (.addressFault s.pc) s)) ∧
    (c.speculativeOperandRead = true → s.pc = 254 ∨ s.pc = 255 →
      stepWith c s = .next (faulted (.addressFault 256) s)) ∧
    (s.pc ≤ 255 → (c.speculativeOperandRead = true → s.pc ≤ 253) →
      (¬ Listed (M s s.pc) → stepWith c s = .next (faulted (.illegalOpcode (M s s.pc)) s)) ∧
      (∀ n m, (M s s.pc, n, m) ∈ opcodeTable →
        (255 < s.pc + n → stepWith c s = .next (faulted (.addressFault 256) s)) ∧
        (s.pc + n ≤ 255 →
          (1 ≤ m → 7 < (M s (s.pc + 1)).toNat →
            stepWith c s = .next (faulted (.registerIndexFault (M s (s.pc + 1))) s)) ∧
          (m = 2 → (M s (s.pc + 1)).toNat ≤ 7 → 7 < (M s (s.pc + 2)).toNat →
            stepWith c s = .next (faulted (.registerIndexFault (M s (s.pc + 2))) s)) ∧
          (M s s.pc = 0x50#8 → s.pc = 254 → (M s 255).toNat ≤ 7 →
            stepWith c s = .next (faulted (.returnAddressFault 256) s)))))

/-- The two settings of SPECULATIVE_OPERAND_READ differ only for an instruction at address 254 or 255, and there
only in that the speculative one raises AddressFault (D5). -/
def Obligations.SettingsDifferOnlyAtTheTopOfMemory : Prop :=
  ∀ s : State,
    (s.pc ≠ 254 → s.pc ≠ 255 → stepWith speculative s = stepWith nonSpeculative s) ∧
    (stepWith speculative s = stepWith nonSpeculative s ∨
      stepWith speculative s = .next (faulted (.addressFault 256) s))

/-- Every fault is precise: a step that ends FAULTED has changed nothing but the run state and the fault record,
which holds the `pc` of the faulting instruction (D10). -/
def Obligations.FaultingStepChangesNothingElse : Prop :=
  ∀ (c : Config) (s t : State), stepWith c s = .next t → t.status = .faulted → ∃ f, t = faulted f s

/-- The new `pc` of a step that does not fault, by opcode (R96's table; not reducing `pc + k` is the spec's decision
D3). CALL's target is read after the push. -/
def Obligations.ProgramCounterFollowsTheTable : Prop :=
  ∀ (c : Config) (s t : State), stepWith c s = .next t → t.status ≠ .faulted →
    (M s s.pc = 0x01#8 → t.pc = s.pc + 1) ∧
    (M s s.pc = 0x47#8 ∨ M s s.pc = 0x45#8 ∨ M s s.pc = 0x46#8 → t.pc = s.pc + 2) ∧
    (M s s.pc = 0x82#8 ∨ M s s.pc = 0xA0#8 ∨ M s s.pc = 0xA2#8 → t.pc = s.pc + 3) ∧
    (M s s.pc = 0x50#8 → t.pc = (x t (M s (s.pc + 1)).toNat).toNat) ∧
    (M s s.pc = 0x11#8 → t.pc = (M s (x s 7).toNat).toNat)

/-- Only PRINT_REGISTER appends to the output events, one value a step, and nothing removes from them (R40: "Only
PRINT_REGISTER appends to it ...; nothing removes from it"; that the events are state is the spec's decision D13).
-/
def Obligations.OnlyPrintRegisterEmits : Prop :=
  ∀ (c : Config) (s t : State), stepWith c s = .next t →
    t.out = s.out ∨
    (M s s.pc = 0x47#8 ∧ (M s (s.pc + 1)).toNat ≤ 7 ∧ t.out = s.out ++ [x s (M s (s.pc + 1)).toNat])

/-- Only PUSH and CALL write memory, and only the cell below the stack pointer (the table of R52, which the spec
marks derived from its opcode table). -/
def Obligations.OnlyPushAndCallWriteMemory : Prop :=
  ∀ (c : Config) (s t : State) (a : Nat), stepWith c s = .next t → M t a ≠ M s a →
    (M s s.pc = 0x45#8 ∨ M s s.pc = 0x50#8) ∧ a = pushAddress s ∧ a = (x s 7 - 1#8).toNat

/-- A step changes no register but the one its first operand byte names, in LOAD_IMMEDIATE, ADD, MULTIPLY and POP,
and the stack pointer, in PUSH, POP, CALL and RETURN (an inference from R110 to R151 and R33). -/
def Obligations.OnlyTheNamedRegistersChange : Prop :=
  ∀ (c : Config) (s t : State) (i : Nat), stepWith c s = .next t → i ≤ 7 → x t i ≠ x s i →
    (i = (M s (s.pc + 1)).toNat ∧
      (M s s.pc = 0x82#8 ∨ M s s.pc = 0xA0#8 ∨ M s s.pc = 0xA2#8 ∨ M s s.pc = 0x46#8)) ∨
    (i = 7 ∧ (M s s.pc = 0x45#8 ∨ M s s.pc = 0x46#8 ∨ M s s.pc = 0x50#8 ∨ M s s.pc = 0x11#8))

/-- The output events are interface history: no step reads them (an inference from R40, "It is interface history";
decision D13). -/
def Obligations.OutputHistoryIsNeverRead : Prop :=
  ∀ (c : Config) (s : State) (h : List Byte),
    stepWith c { s with out := h ++ s.out } =
      match stepWith c s with
      | .next t => .next { t with out := h ++ t.out }
      | .fault f => .fault f
      | .refused r => .refused r

/-- A step reads no memory but the cells at `pc`, `pc + 1`, `pc + 2` and at the stack pointer (the table of R52,
which the spec marks derived): two states that agree on those cells and on everything but memory take the same step,
and a cell on which they agree they agree on afterwards. -/
def Obligations.StepReadsOnlyFetchAndStackCells : Prop :=
  ∀ (c : Config) (s t : State) (m : Memory),
    Memory.wf s.mem = true → Memory.wf m = true →
    (∀ a, a = s.pc ∨ a = s.pc + 1 ∨ a = s.pc + 2 ∨ a = (x s 7).toNat → Memory.read m a = M s a) →
    stepWith c s = .next t →
    ∃ m', stepWith c { s with mem := m } = .next { t with mem := m' } ∧
      ∀ a, Memory.read m a = M s a → Memory.read m' a = M t a

/-- An instruction raises RegisterIndexFault exactly when a register operand of it is above 7, and then with an
operand byte above 7 (the spec's decision D6). -/
def Obligations.IllFormedInstructionsRaiseRegisterIndexFault : Prop :=
  ∀ (i : Instr) (s : State), s.status = .running →
    (i.wf = false ↔ ∃ b : Byte, exec i s = .next (faulted (.registerIndexFault b) s)) ∧
    (∀ b : Byte, exec i s = .next (faulted (.registerIndexFault b) s) → 7 < b.toNat ∧ b ∈ (encode i).drop 1)

/-! ### The instructions, one statement per rule -/

/-- R99, HALT: encoding, effect, AddressFaults, that a HALT at 255 too ends HALTED, and that HALTED is terminal and
reached by HALT alone. -/
def Obligations.HaltStopsTheEngine : Prop :=
  ∀ (c : Config) (s : State),
    encode .halt = [0x01#8] ∧
    exec .halt s = .next { s with status := .halted, pc := s.pc + 1 } ∧
    AddressFaults c s 0x01#8 0 ∧
    (s.status = .running → s.pc ≤ 255 → (c.speculativeOperandRead = true → s.pc + 2 ≤ 255) → M s s.pc = 0x01#8 →
      stepWith c s = .next { s with status := .halted, pc := s.pc + 1 }) ∧
    (¬ ∃ t, stepWith c { s with status := .halted, pc := s.pc + 1 } = .next t) ∧
    (∀ t, stepWith c s = .next t → t.status = .halted → M s s.pc = 0x01#8)

/-- R110, LOAD_IMMEDIATE: encoding, effect and frame for every register and immediate, and its faults. -/
def Obligations.LoadImmediateWritesTheRegister : Prop :=
  ∀ (c : Config) (s : State),
    (∀ ra imm : Byte, encode (.loadImmediate ra imm) = [0x82#8, ra, imm]) ∧
    (∀ ra imm : Byte, ra.toNat ≤ 7 → ∃ t, exec (.loadImmediate ra imm) s = .next t ∧
      x t ra.toNat = imm ∧ RegistersSameBut [ra.toNat] s t ∧ MemorySame s t ∧ t.out = s.out ∧ RunStateSame s t ∧
      t.pc = s.pc + 3) ∧
    (∀ ra imm : Byte, 7 < ra.toNat →
      exec (.loadImmediate ra imm) s = .next (faulted (.registerIndexFault ra) s)) ∧
    AddressFaults c s 0x82#8 2

/-- PRINT_REGISTER (the CORE's part of R111; the decimal text is the host's): one output event with the register's
value, everything else unchanged, and its faults. -/
def Obligations.PrintRegisterEmitsTheRegister : Prop :=
  ∀ (c : Config) (s : State),
    (∀ ra : Byte, encode (.printRegister ra) = [0x47#8, ra]) ∧
    (∀ ra : Byte, ra.toNat ≤ 7 → ∃ t, exec (.printRegister ra) s = .next t ∧
      t.out = s.out ++ [x s ra.toNat] ∧ RegistersSameBut [] s t ∧ MemorySame s t ∧ RunStateSame s t ∧
      t.pc = s.pc + 2) ∧
    (∀ ra : Byte, 7 < ra.toNat → exec (.printRegister ra) s = .next (faulted (.registerIndexFault ra) s)) ∧
    AddressFaults c s 0x47#8 1

/-- R123, ADD: the destination holds the sum of both registers modulo 256, both read before the write; its frame and
its faults, the first operand's before the second's. -/
def Obligations.AddAddsModulo256 : Prop :=
  ∀ (c : Config) (s : State),
    (∀ ra rb : Byte, encode (.add ra rb) = [0xA0#8, ra, rb]) ∧
    (∀ ra rb : Byte, ra.toNat ≤ 7 → rb.toNat ≤ 7 → ∃ t, exec (.add ra rb) s = .next t ∧
      (x t ra.toNat).toNat = ((x s ra.toNat).toNat + (x s rb.toNat).toNat) % 256 ∧
      RegistersSameBut [ra.toNat] s t ∧ MemorySame s t ∧ t.out = s.out ∧ RunStateSame s t ∧ t.pc = s.pc + 3) ∧
    (∀ ra rb : Byte, 7 < ra.toNat → exec (.add ra rb) s = .next (faulted (.registerIndexFault ra) s)) ∧
    (∀ ra rb : Byte, ra.toNat ≤ 7 → 7 < rb.toNat →
      exec (.add ra rb) s = .next (faulted (.registerIndexFault rb) s)) ∧
    AddressFaults c s 0xA0#8 2

/-- R124, MULTIPLY: the destination holds the product of both registers modulo 256, both read before the write; its
frame and its faults, the first operand's before the second's. -/
def Obligations.MultiplyMultipliesModulo256 : Prop :=
  ∀ (c : Config) (s : State),
    (∀ ra rb : Byte, encode (.multiply ra rb) = [0xA2#8, ra, rb]) ∧
    (∀ ra rb : Byte, ra.toNat ≤ 7 → rb.toNat ≤ 7 → ∃ t, exec (.multiply ra rb) s = .next t ∧
      (x t ra.toNat).toNat = ((x s ra.toNat).toNat * (x s rb.toNat).toNat) % 256 ∧
      RegistersSameBut [ra.toNat] s t ∧ MemorySame s t ∧ t.out = s.out ∧ RunStateSame s t ∧ t.pc = s.pc + 3) ∧
    (∀ ra rb : Byte, 7 < ra.toNat → exec (.multiply ra rb) s = .next (faulted (.registerIndexFault ra) s)) ∧
    (∀ ra rb : Byte, ra.toNat ≤ 7 → 7 < rb.toNat →
      exec (.multiply ra rb) s = .next (faulted (.registerIndexFault rb) s)) ∧
    AddressFaults c s 0xA2#8 2

/-- R141, PUSH: the stack pointer goes down by one modulo 256 and the register, read after that, is stored where it
points; no other register and no other byte of memory changes; its faults. -/
def Obligations.PushStoresBelowTheStackPointer : Prop :=
  ∀ (c : Config) (s : State),
    (∀ ra : Byte, encode (.push ra) = [0x45#8, ra]) ∧
    (∀ ra : Byte, ra.toNat ≤ 7 → ∃ t, exec (.push ra) s = .next t ∧
      (x t 7).toNat = ((x s 7).toNat + 255) % 256 ∧ RegistersSameBut [7] s t ∧
      pushAddress s = (x t 7).toNat ∧
      (Memory.wf s.mem = true → M t (pushAddress s) = x t ra.toNat) ∧
      (∀ a, pushAddress s = a → MemorySameBut a s t) ∧
      t.out = s.out ∧ RunStateSame s t ∧ t.pc = s.pc + 2) ∧
    (∀ ra : Byte, 7 < ra.toNat → exec (.push ra) s = .next (faulted (.registerIndexFault ra) s)) ∧
    AddressFaults c s 0x45#8 1

/-- R142, POP: the register receives the byte the stack pointer points to, then the stack pointer goes up by one
modulo 256 (POP r7 ends with the byte plus one); memory is unchanged; its faults. -/
def Obligations.PopLoadsFromTheStackPointer : Prop :=
  ∀ (c : Config) (s : State),
    (∀ ra : Byte, encode (.pop ra) = [0x46#8, ra]) ∧
    (∀ ra : Byte, ra.toNat ≤ 7 → ∃ t, exec (.pop ra) s = .next t ∧
      (ra.toNat ≠ 7 → x t ra.toNat = M s (x s 7).toNat ∧ (x t 7).toNat = ((x s 7).toNat + 1) % 256) ∧
      (ra.toNat = 7 → (x t 7).toNat = ((M s (x s 7).toNat).toNat + 1) % 256) ∧
      RegistersSameBut [ra.toNat, 7] s t ∧ MemorySame s t ∧ t.out = s.out ∧ RunStateSame s t ∧
      t.pc = s.pc + 2) ∧
    (∀ ra : Byte, 7 < ra.toNat → exec (.pop ra) s = .next (faulted (.registerIndexFault ra) s)) ∧
    AddressFaults c s 0x46#8 1

/-- CALL (R150): the stack pointer goes down by one modulo 256, the return address `pc + 2` is stored where it
points, and `pc` becomes the register, read after that; the frame; and its faults. ReturnAddressFault is the spec's
decision D8. -/
def Obligations.CallPushesTheReturnAddress : Prop :=
  ∀ (c : Config) (s : State),
    (∀ ra : Byte, encode (.call ra) = [0x50#8, ra]) ∧
    (∀ ra : Byte, ra.toNat ≤ 7 → s.pc + 2 ≤ 255 → ∃ t, exec (.call ra) s = .next t ∧
      (x t 7).toNat = ((x s 7).toNat + 255) % 256 ∧ RegistersSameBut [7] s t ∧
      pushAddress s = (x t 7).toNat ∧
      (Memory.wf s.mem = true → (M t (pushAddress s)).toNat = s.pc + 2) ∧
      (∀ a, pushAddress s = a → MemorySameBut a s t) ∧
      t.out = s.out ∧ RunStateSame s t ∧ t.pc = (x t ra.toNat).toNat) ∧
    (∀ ra : Byte, 7 < ra.toNat → exec (.call ra) s = .next (faulted (.registerIndexFault ra) s)) ∧
    (∀ ra : Byte, ra.toNat ≤ 7 → 255 < s.pc + 2 →
      exec (.call ra) s = .next (faulted (.returnAddressFault (s.pc + 2)) s)) ∧
    AddressFaults c s 0x50#8 1

/-- R151, RETURN: `pc` becomes the byte the stack pointer points to and the stack pointer goes up by one modulo 256;
the frame; and its AddressFaults. -/
def Obligations.ReturnPopsTheProgramCounter : Prop :=
  ∀ (c : Config) (s : State),
    encode .ret = [0x11#8] ∧
    (∃ t, exec .ret s = .next t ∧ t.pc = (M s (x s 7).toNat).toNat ∧
      (x t 7).toNat = ((x s 7).toNat + 1) % 256 ∧ RegistersSameBut [7] s t ∧ MemorySame s t ∧ t.out = s.out ∧
      RunStateSame s t) ∧
    AddressFaults c s 0x11#8 0

/-! ### Two and three instructions in a row -/

/-- LOAD_IMMEDIATE then PRINT_REGISTER on the same register emits the immediate (R112, for every register and
immediate, which the spec marks derived). -/
def Obligations.LoadThenPrintEmitsTheImmediate : Prop :=
  ∀ (s : State) (ra imm : Byte), ra.toNat ≤ 7 →
    ∃ t u, exec (.loadImmediate ra imm) s = .next t ∧ exec (.printRegister ra) t = .next u ∧
      u.out = s.out ++ [imm]

/-- ADD and MULTIPLY after two loads (R125, which the spec marks derived; decision D1): the sum and the product
modulo 256; of one and the same register the second load counts. -/
def Obligations.AluAfterTwoLoads : Prop :=
  ∀ (s : State) (ra rb v1 v2 : Byte), ra.toNat ≤ 7 → rb.toNat ≤ 7 →
    ∃ t u, exec (.loadImmediate ra v1) s = .next t ∧ exec (.loadImmediate rb v2) t = .next u ∧
      ∃ p q, exec (.add ra rb) u = .next p ∧ exec (.multiply ra rb) u = .next q ∧
        (ra ≠ rb → (x p ra.toNat).toNat = (v1.toNat + v2.toNat) % 256 ∧
          (x q ra.toNat).toNat = (v1.toNat * v2.toNat) % 256) ∧
        (ra = rb → (x p ra.toNat).toNat = (v2.toNat + v2.toNat) % 256 ∧
          (x q ra.toNat).toNat = (v2.toNat * v2.toNat) % 256)

/-- PUSH then POP (R143, which the spec marks derived; decision D9 for r7): the popped register holds the byte that
was pushed and the stack pointer is back, except that POP r7 leaves the pushed byte plus one in the stack pointer.
-/
def Obligations.PopAfterPushRestores : Prop :=
  ∀ (s : State) (ra rb : Byte), Memory.wf s.mem = true → ra.toNat ≤ 7 → rb.toNat ≤ 7 →
    ∃ t u, exec (.push ra) s = .next t ∧ exec (.pop rb) t = .next u ∧
      ∃ w : Byte, w = (if ra.toNat = 7 then x s 7 - 1#8 else x s ra.toNat) ∧
        (rb.toNat ≠ 7 → x u rb.toNat = w ∧ x u 7 = x s 7) ∧
        (rb.toNat = 7 → x u 7 = w + 1#8)

/-- CALL then RETURN (R152, which the spec marks derived): control goes to the register's value, and a RETURN in any
later state whose stack pointer and whose cell at that address are what CALL left resumes after the CALL's operand
byte with the old stack pointer. -/
def Obligations.ReturnAfterCallResumes : Prop :=
  ∀ (s : State) (ra : Byte), Memory.wf s.mem = true → ra.toNat ≤ 6 → s.pc ≤ 253 →
    ∃ t, exec (.call ra) s = .next t ∧ t.pc = (x s ra.toNat).toNat ∧
      ∀ u : State, x u 7 = x t 7 → M u (x t 7).toNat = M t (x t 7).toNat →
        ∃ v, exec .ret u = .next v ∧ v.pc = s.pc + 2 ∧ x v 7 = x s 7

/-- A byte PUSH stores is what the very next fetch sees (R66, which the spec marks derived): if the pushed cell is where
`pc` goes and the byte is a whole instruction, the next step runs that instruction.  The next step is that of the
setting `false`, the model's choice (assumption 1), because the cell may be at 254 or 255. -/
def Obligations.PushedByteIsFetchedNext : Prop :=
  ∀ (s : State) (ra : Byte) (i : Instr), Memory.wf s.mem = true → s.status = .running → ra.toNat ≤ 7 →
    pushAddress s = s.pc + 2 →
    encode i = [if ra.toNat = 7 then x s 7 - 1#8 else x s ra.toNat] →
      ∃ t, exec (.push ra) s = .next t ∧ step t = exec i t

/-! ### Reset, load, invariant, runs -/

/-- What reset leaves, in any run state (the table of R45; the reset input, the fault record and the output events
are the spec's decisions D22, D10 and D13). -/
def Obligations.ResetLeavesTheGivenValues : Prop :=
  ∀ s : State,
    (∀ i, i ≤ 6 → x (assertReset s) i = 0#8) ∧ x (assertReset s) 7 = 0xF4#8 ∧ (assertReset s).pc = 0 ∧
    (∀ a, M (assertReset s) a = 0#8) ∧ (assertReset s).status = .running ∧ (assertReset s).fault = none ∧
    (assertReset s).out = [] ∧ assertReset s = State.reset

/-- The load port places the image from address 0 up and touches nothing else; an image of more than 256 bytes
starts no run (R193; the size limit is the spec's decision D15). -/
def Obligations.LoadPlacesTheImage : Prop :=
  ∀ (image : List Byte) (s : State), Memory.wf s.mem = true →
    (image.length ≤ 256 → ∃ t, load image s = .next t ∧ Memory.wf t.mem = true ∧
      (∀ a, M t a = if h : a < image.length then image[a] else M s a) ∧
      t.regs = s.regs ∧ t.pc = s.pc ∧ t.status = s.status ∧ t.fault = s.fault ∧ t.out = s.out) ∧
    (256 < image.length → load image s = .refused (.imageTooLong image.length))

/-- The invariant holds after reset. The invariant is the model's gathering of R37, R39, R50 and the table of fault
kinds (decisions D2 to D4, D10). -/
def Obligations.ResetMeetsTheInvariant : Prop := State.reset.Inv

/-- Every step keeps the invariant, from every state that meets it, for both settings of SPECULATIVE_OPERAND_READ
(an inference; the clauses rest on decisions D2 to D4, D6, D8 and D10): the memory stays canonical, `pc` stays at
most 256 (R37), the fault record stays `none` outside FAULTED and in FAULTED holds `pc` and an info value of its
kind (R39, R161 to R165). -/
def Obligations.StepKeepsTheInvariant : Prop :=
  ∀ (c : Config) (s t : State), s.Inv → stepWith c s = .next t → t.Inv

/-- Every state of every run meets the invariant, whatever image was loaded, so AluUnsupported stands in no fault record
of a run.  An inference: the invariant rests on decisions D2 to D4, D6, D8 and D10, the load on D15; that nothing raises
AluUnsupported is R165. -/
def Obligations.EveryReachableStateMeetsTheInvariant : Prop :=
  ∀ (c : Config) (s : State), Reachable c s →
    s.Inv ∧ ∀ p, s.fault ≠ some { kind := .aluUnsupported, fpc := p }

/-- A run that has ended has ended: more fuel gives the same end, the end is HALTED or FAULTED, and only then is
there an observation; running out of fuel leaves a RUNNING state (R98, R195). -/
def Obligations.EndedRunsStayEnded : Prop :=
  ∀ (c : Config) (n k : Nat) (s t : State),
    (runWith c n s = .ended t → runWith c (n + k) s = .ended t ∧ t.status ≠ .running ∧ observation t ≠ none) ∧
    (runWith c n s = .notEnded t → t.status = .running ∧ observation t = none)

/-- What the host reads of a stop (the content of R172; exit code 1 for every fault and the bytes left out above 255
are the spec's decisions D18 and D21). -/
def Obligations.HostReadsTheStop : Prop :=
  ∀ s : State,
    (s.status = .running → hostExitCode s = none ∧ faultDump s = none) ∧
    (CleanStop s → hostExitCode s = some 0 ∧ faultDump s = none) ∧
    (s.status = .faulted → hostExitCode s = some 1 ∧
      ∃ d, faultDump s = some d ∧ d.pc = s.pc ∧ d.regs = s.regs ∧
        (s.pc ≤ 253 → d.nextBytes = [M s s.pc, M s (s.pc + 1), M s (s.pc + 2)]) ∧
        (s.pc = 254 → d.nextBytes = [M s 254, M s 255]) ∧
        (s.pc = 255 → d.nextBytes = [M s 255]) ∧
        (256 ≤ s.pc → d.nextBytes = []))
end

