-- ==== Sys2Proof/Laws/Decode.lean ====
section
/-! SUPPORT. Small lemmas of the opcode map and of the operand decoders. -/

namespace Sys2Proof

/-- The 9 opcode bytes and nothing else are recognised. -/
theorem opcodeOf?_eq_some_iff (b : Byte) (op : Opcode) :
    opcodeOf? b = some op ↔
      b = match op with
        | .halt => 0x01#8 | .loadImmediate => 0x82#8 | .printRegister => 0x47#8 | .multiply => 0xA2#8
        | .add => 0xA0#8 | .push => 0x45#8 | .pop => 0x46#8 | .call => 0x50#8 | .ret => 0x11#8 := by
  cases op <;> (revert b; decide)

@[simp] theorem decodeOne_cons (mk : Byte → Instr) (b1 : Byte) (rest : List Byte) :
    decodeOne mk (b1 :: rest) = .ok (mk b1, rest) := rfl

@[simp] theorem decodeTwo_cons (mk : Byte → Byte → Instr) (b1 b2 : Byte) (rest : List Byte) :
    decodeTwo mk (b1 :: b2 :: rest) = .ok (mk b1 b2, rest) := rfl

theorem decode_cons_of_some {b0 : Byte} {op : Opcode} (h : opcodeOf? b0 = some op) (bytes : List Byte) :
    decode (b0 :: bytes) = decodeOperands op bytes := by
  simp [decode, h]

theorem decode_cons_of_none {b0 : Byte} (h : opcodeOf? b0 = none) (bytes : List Byte) :
    decode (b0 :: bytes) = .error (.illegalOpcode b0) := by
  simp [decode, h]

theorem operandCount_le_two (f : Format) : operandCount f ≤ 2 := by
  cases f <;> decide

end Sys2Proof
end

