-- ==== Sys2Proof/Laws/Memory.lean ====
section
/-! SUPPORT. Memory: read after write, and that every memory operation keeps the canonical form. -/

namespace Sys2Proof.Machine

@[simp] theorem Memory.read_nil (a : Nat) : Memory.read [] a = 0#8 := rfl

/-- Below the lowest address a canonical list may hold, every address reads as the reset fill. -/
theorem Memory.read_of_lt_wfFrom {m : Memory} {lo a : Nat} (h : Memory.wfFrom lo m = true) (ha : a < lo) :
    Memory.read m a = unlistedByte := by
  induction m generalizing lo with
  | nil => rfl
  | cons kv m ih =>
    obtain ⟨k, v⟩ := kv
    simp only [Memory.wfFrom, Bool.and_eq_true, decide_eq_true_eq] at h
    obtain ⟨⟨⟨hlo, -⟩, -⟩, hm⟩ := h
    have : k ≠ a := by omega
    simp only [Memory.read, this, if_false]
    exact ih hm (by omega)

theorem Memory.read_write_of_ne (m : Memory) {a b : Nat} (v : Byte) (h : b ≠ a) :
    Memory.read (Memory.write m a v) b = Memory.read m b := by
  induction m with
  | nil => by_cases hv : v = unlistedByte <;> simp [Memory.write, hv, Memory.read, Ne.symm h]; rfl
  | cons kw m ih =>
    obtain ⟨k, w⟩ := kw
    simp only [Memory.write]
    split
    · simp only [Memory.read, ih]
    · split
      · subst_vars
        split <;> simp [Memory.read, Ne.symm h]
      · split <;> simp [Memory.read, Ne.symm h]

theorem Memory.read_write_self_from {m : Memory} {lo : Nat} (h : Memory.wfFrom lo m = true) (a : Nat) (v : Byte) :
    Memory.read (Memory.write m a v) a = v := by
  induction m generalizing lo with
  | nil => by_cases hv : v = unlistedByte <;> simp [Memory.write, hv, Memory.read]; rfl
  | cons kw m ih =>
    obtain ⟨k, w⟩ := kw
    simp only [Memory.wfFrom, Bool.and_eq_true, decide_eq_true_eq] at h
    obtain ⟨-, hm⟩ := h
    simp only [Memory.write]
    split
    · rename_i hk
      have : k ≠ a := by omega
      simp only [Memory.read, this, if_false]
      exact ih hm
    · split
      · split
        · rw [Memory.read_of_lt_wfFrom hm (by omega)]; simp_all
        · simp [Memory.read]
      · split
        · have : k ≠ a := by assumption
          simp only [Memory.read, this, if_false]
          rw [Memory.read_of_lt_wfFrom hm (by omega)]; simp_all
        · simp [Memory.read]

theorem Memory.wfFrom_mono {m : Memory} {lo lo' : Nat} (h : Memory.wfFrom lo m = true) (hl : lo' ≤ lo) :
    Memory.wfFrom lo' m = true := by
  cases m with
  | nil => rfl
  | cons kv m =>
    obtain ⟨k, v⟩ := kv
    simp only [Memory.wfFrom, Bool.and_eq_true, decide_eq_true_eq] at h ⊢
    exact ⟨⟨⟨by omega, h.1.1.2⟩, h.1.2⟩, h.2⟩

theorem Memory.wfFrom_write {m : Memory} {lo : Nat} (h : Memory.wfFrom lo m = true) {a : Nat} (hlo : lo ≤ a)
    (ha : a < Config.memSize) (v : Byte) : Memory.wfFrom lo (Memory.write m a v) = true := by
  induction m generalizing lo with
  | nil => by_cases hv : v = unlistedByte <;> simp [Memory.write, hv, Memory.wfFrom, hlo, ha]
  | cons kw m ih =>
    obtain ⟨k, w⟩ := kw
    have h' := h
    simp only [Memory.wfFrom, Bool.and_eq_true, decide_eq_true_eq] at h'
    obtain ⟨⟨⟨hk, hk'⟩, hw⟩, hm⟩ := h'
    simp only [Memory.write]
    split
    · simp only [Memory.wfFrom, Bool.and_eq_true, decide_eq_true_eq]
      exact ⟨⟨⟨hk, hk'⟩, hw⟩, ih hm (by omega)⟩
    · split
      · split
        · exact Memory.wfFrom_mono hm (by omega)
        · simp only [Memory.wfFrom, Bool.and_eq_true, decide_eq_true_eq]
          exact ⟨⟨⟨hlo, ha⟩, by assumption⟩, Memory.wfFrom_mono hm (by omega)⟩
      · split
        · exact h
        · simp only [Memory.wfFrom, Bool.and_eq_true, decide_eq_true_eq]
          exact ⟨⟨⟨hlo, ha⟩, by assumption⟩, ⟨⟨by omega, hk'⟩, hw⟩, hm⟩

/-- A write to an address of the memory keeps the canonical form. -/
theorem Memory.wf_write {m : Memory} (h : Memory.wf m = true) {a : Nat} (ha : a < Config.memSize) (v : Byte) :
    Memory.wf (Memory.write m a v) = true :=
  Memory.wfFrom_write h (Nat.zero_le a) ha v

/-- Read after write, in canonical memory. -/
theorem Memory.read_write {m : Memory} (h : Memory.wf m = true) (a b : Nat) (v : Byte) :
    Memory.read (Memory.write m a v) b = if b = a then v else Memory.read m b := by
  by_cases hb : b = a
  · subst hb; simp [Memory.read_write_self_from h]
  · simp [hb, Memory.read_write_of_ne m v hb]

/-- Equal readings make equal canonical memories: the form is canonical. -/
theorem Memory.ext_of_wfFrom {m m' : Memory} {lo : Nat} (h : Memory.wfFrom lo m = true)
    (h' : Memory.wfFrom lo m' = true) (hr : ∀ a, Memory.read m a = Memory.read m' a) : m = m' := by
  induction m generalizing m' lo with
  | nil =>
    cases m' with
    | nil => rfl
    | cons kv m' =>
      obtain ⟨k, v⟩ := kv
      have := hr k
      simp_all [Memory.read, Memory.wfFrom, unlistedByte]
  | cons kv m ih =>
    obtain ⟨k, v⟩ := kv
    simp only [Memory.wfFrom, Bool.and_eq_true, decide_eq_true_eq] at h
    obtain ⟨⟨⟨hk, -⟩, hv⟩, hm⟩ := h
    cases m' with
    | nil => have := hr k; simp_all [Memory.read, unlistedByte]
    | cons kv' m' =>
      obtain ⟨k', v'⟩ := kv'
      simp only [Memory.wfFrom, Bool.and_eq_true, decide_eq_true_eq] at h'
      obtain ⟨⟨⟨hk', -⟩, hv'⟩, hm'⟩ := h'
      have hkk : k = k' := by
        rcases Nat.lt_trichotomy k k' with hlt | heq | hgt
        · have := hr k
          have hne : k' ≠ k := by omega
          simp only [Memory.read, if_true, hne, if_false] at this
          rw [Memory.read_of_lt_wfFrom hm' (by omega)] at this
          exact absurd this hv
        · exact heq
        · have := hr k'
          have hne : k ≠ k' := by omega
          simp only [Memory.read, if_true, hne, if_false] at this
          rw [Memory.read_of_lt_wfFrom hm (by omega)] at this
          exact absurd this.symm hv'
      subst hkk
      have hvv : v = v' := by simpa [Memory.read] using hr k
      subst hvv
      congr 1
      refine ih hm hm' fun a => ?_
      by_cases ha : k = a
      · subst ha
        rw [Memory.read_of_lt_wfFrom hm (by omega), Memory.read_of_lt_wfFrom hm' (by omega)]
      · simpa [Memory.read, ha] using hr a

/-- Storing bytes at addresses of the memory keeps the canonical form. -/
theorem wf_storeBytes {m : Memory} (h : Memory.wf m = true) (a : Nat) (bytes : List Byte)
    (ha : a + bytes.length ≤ Config.memSize) : Memory.wf (storeBytes m a bytes) = true := by
  induction bytes generalizing m a with
  | nil => exact h
  | cons b bs ih =>
    simp only [List.length_cons] at ha
    exact ih (Memory.wf_write h (by omega) b) (a + 1) (by omega)

/-- What every address reads as after bytes were stored from `a` up. -/
theorem read_storeBytes {m : Memory} (h : Memory.wf m = true) (a : Nat) (bytes : List Byte)
    (ha : a + bytes.length ≤ Config.memSize) (b : Nat) :
    Memory.read (storeBytes m a bytes) b =
      if a ≤ b then (bytes[b - a]?).getD (Memory.read m b) else Memory.read m b := by
  induction bytes generalizing m a with
  | nil => simp [storeBytes]
  | cons v bs ih =>
    simp only [List.length_cons] at ha
    rw [storeBytes, ih (Memory.wf_write h (by omega) v) (a + 1) (by omega)]
    rw [Memory.read_write h]
    rcases Nat.lt_trichotomy b a with hlt | heq | hgt
    · have h1 : ¬ a + 1 ≤ b := by omega
      have h2 : ¬ a ≤ b := by omega
      have h3 : b ≠ a := by omega
      simp [h1, h2, h3]
    · subst heq; simp
    · have h1 : a + 1 ≤ b := by omega
      have h2 : a ≤ b := by omega
      have h3 : b ≠ a := by omega
      have h4 : b - a = (b - (a + 1)) + 1 := by omega
      simp [h1, h2, h3, h4]

@[simp] theorem reset_memory_wf : Memory.wf State.reset.mem = true := rfl

end Sys2Proof.Machine
end

