-- ==== Sys2Proof/Laws/State.lean ====
section
/-! SUPPORT. One lemma per field and per update of State, so that no later proof unfolds a record update. -/

namespace Sys2Proof.Machine

variable (s : State) (r : Reg) (v : Byte) (t : Nat) (st : RunState) (f : FaultKind)

@[simp] theorem writeReg_regs : (writeReg r v s).regs = s.regs.set r v := rfl
@[simp] theorem writeReg_pc : (writeReg r v s).pc = s.pc := rfl
@[simp] theorem writeReg_mem : (writeReg r v s).mem = s.mem := rfl
@[simp] theorem writeReg_status : (writeReg r v s).status = s.status := rfl
@[simp] theorem writeReg_fault : (writeReg r v s).fault = s.fault := rfl
@[simp] theorem writeReg_out : (writeReg r v s).out = s.out := rfl

@[simp] theorem setPc_regs : (setPc t s).regs = s.regs := rfl
@[simp] theorem setPc_pc : (setPc t s).pc = t := rfl
@[simp] theorem setPc_mem : (setPc t s).mem = s.mem := rfl
@[simp] theorem setPc_status : (setPc t s).status = s.status := rfl
@[simp] theorem setPc_fault : (setPc t s).fault = s.fault := rfl
@[simp] theorem setPc_out : (setPc t s).out = s.out := rfl

@[simp] theorem setStatus_regs : (setStatus st s).regs = s.regs := rfl
@[simp] theorem setStatus_pc : (setStatus st s).pc = s.pc := rfl
@[simp] theorem setStatus_mem : (setStatus st s).mem = s.mem := rfl
@[simp] theorem setStatus_status : (setStatus st s).status = st := rfl
@[simp] theorem setStatus_fault : (setStatus st s).fault = s.fault := rfl
@[simp] theorem setStatus_out : (setStatus st s).out = s.out := rfl

@[simp] theorem emit_regs : (emit v s).regs = s.regs := rfl
@[simp] theorem emit_pc : (emit v s).pc = s.pc := rfl
@[simp] theorem emit_mem : (emit v s).mem = s.mem := rfl
@[simp] theorem emit_status : (emit v s).status = s.status := rfl
@[simp] theorem emit_fault : (emit v s).fault = s.fault := rfl
@[simp] theorem emit_out : (emit v s).out = s.out ++ [v] := rfl

@[simp] theorem decSp_regs : (decSp s).regs = s.regs.set .r7 (s.regs.get .r7 - 1#8) := rfl
@[simp] theorem decSp_pc : (decSp s).pc = s.pc := rfl
@[simp] theorem decSp_mem : (decSp s).mem = s.mem := rfl
@[simp] theorem decSp_status : (decSp s).status = s.status := rfl
@[simp] theorem decSp_fault : (decSp s).fault = s.fault := rfl
@[simp] theorem decSp_out : (decSp s).out = s.out := rfl

@[simp] theorem incSp_regs : (incSp s).regs = s.regs.set .r7 (s.regs.get .r7 + 1#8) := rfl
@[simp] theorem incSp_pc : (incSp s).pc = s.pc := rfl
@[simp] theorem incSp_mem : (incSp s).mem = s.mem := rfl
@[simp] theorem incSp_status : (incSp s).status = s.status := rfl
@[simp] theorem incSp_fault : (incSp s).fault = s.fault := rfl
@[simp] theorem incSp_out : (incSp s).out = s.out := rfl

@[simp] theorem enterFault_regs : (enterFault f s).regs = s.regs := rfl
@[simp] theorem enterFault_pc : (enterFault f s).pc = s.pc := rfl
@[simp] theorem enterFault_mem : (enterFault f s).mem = s.mem := rfl
@[simp] theorem enterFault_status : (enterFault f s).status = .faulted := rfl
@[simp] theorem enterFault_fault : (enterFault f s).fault = some { kind := f, fpc := s.pc } := rfl
@[simp] theorem enterFault_out : (enterFault f s).out = s.out := rfl

end Sys2Proof.Machine
end

