-- ==== Sys2Proof/Laws/Registers.lean ====
section
/-! SUPPORT. The register file: read after write, and which register a byte names. -/

namespace Sys2Proof.Machine

@[simp] theorem RegFile.get_set_self (f : RegFile) (r : Reg) (v : Byte) : (f.set r v).get r = v := by
  cases r <;> rfl

@[simp] theorem RegFile.get_set_of_ne (f : RegFile) {q r : Reg} (v : Byte) (h : q ≠ r) :
    (f.set r v).get q = f.get q := by
  cases q <;> cases r <;> first | rfl | exact absurd rfl h

theorem RegFile.get_set (f : RegFile) (q r : Reg) (v : Byte) :
    (f.set r v).get q = if q = r then v else f.get q := by
  by_cases h : q = r
  · subst h; simp
  · simp [h]

@[simp] theorem readReg_writeReg_self (s : State) (r : Reg) (v : Byte) : readReg r (writeReg r v s) = v := by
  simp [readReg]

theorem readReg_writeReg (s : State) (q r : Reg) (v : Byte) :
    readReg q (writeReg r v s) = if q = r then v else readReg q s := by
  simp [readReg, RegFile.get_set]

@[simp] theorem readReg_setPc (s : State) (r : Reg) (t : Nat) : readReg r (setPc t s) = readReg r s := rfl

@[simp] theorem readReg_emit (s : State) (r : Reg) (v : Byte) : readReg r (emit v s) = readReg r s := rfl

@[simp] theorem regOfByte?_byteOfReg (r : Reg) : regOfByte? (byteOfReg r) = some r := by
  cases r <;> rfl

theorem byteOfReg_toNat_le (r : Reg) : (byteOfReg r).toNat ≤ 7 := by
  cases r <;> decide

/-- A byte up to 7 names a register, and is that register's byte. -/
theorem exists_reg_of_toNat_le {b : Byte} (h : b.toNat ≤ 7) : ∃ r, b = byteOfReg r := by
  have key : ∀ b : Byte, b.toNat ≤ 7 → b = byteOfReg .r0 ∨ b = byteOfReg .r1 ∨ b = byteOfReg .r2 ∨
      b = byteOfReg .r3 ∨ b = byteOfReg .r4 ∨ b = byteOfReg .r5 ∨ b = byteOfReg .r6 ∨ b = byteOfReg .r7 := by
    decide
  rcases key b h with h | h | h | h | h | h | h | h <;> exact ⟨_, h⟩

theorem regOfByte?_eq_none {b : Byte} (h : 7 < b.toNat) : regOfByte? b = none := by
  revert h; revert b; decide

@[simp] theorem registerOperand_byteOfReg (r : Reg) : registerOperand (byteOfReg r) = .ok r := by
  simp [registerOperand]

theorem registerOperand_of_lt {b : Byte} (h : 7 < b.toNat) :
    registerOperand b = .error (.registerIndexFault b) := by
  simp [registerOperand, regOfByte?_eq_none h]

/-- Everything the register-operand check can answer. -/
theorem registerOperand_cases (b : Byte) :
    (∃ r, b = byteOfReg r ∧ registerOperand b = .ok r) ∨
    (7 < b.toNat ∧ registerOperand b = .error (.registerIndexFault b)) := by
  by_cases h : b.toNat ≤ 7
  · obtain ⟨r, rfl⟩ := exists_reg_of_toNat_le h
    exact .inl ⟨r, rfl, by simp⟩
  · exact .inr ⟨by omega, registerOperand_of_lt (by omega)⟩

/-- Well-formedness of an operand and the check at run time agree. -/
theorem isRegisterIndex_iff (b : Byte) : isRegisterIndex b = true ↔ ∃ r, registerOperand b = .ok r := by
  rcases registerOperand_cases b with ⟨r, rfl, h⟩ | ⟨hb, h⟩
  · have := byteOfReg_toNat_le r
    simp [isRegisterIndex, Config.numRegs]; omega
  · simp [isRegisterIndex, Config.numRegs, h]; omega

end Sys2Proof.Machine
end

