-- ==== Sys2Proof/Laws/Ops.lean ====
section
/-! SUPPORT. What each shared operation can do: checked memory access, the stack address, the end of an
instruction. -/

namespace Sys2Proof.Machine

theorem inMemory_iff (a : Nat) : inMemory a = true ↔ a ≤ 255 := by
  simp [inMemory, Config.memSize]; omega

theorem memRead_of_le {a : Nat} (s : State) (h : a ≤ 255) : memRead a s = .ok (Memory.read s.mem a) := by
  simp [memRead, (inMemory_iff a).2 h]

theorem memRead_of_gt {a : Nat} (s : State) (h : 255 < a) : memRead a s = .error (.addressFault a) := by
  simp [memRead, inMemory, Config.memSize]; omega

theorem memWrite_of_le {a : Nat} (v : Byte) (s : State) (h : a ≤ 255) :
    memWrite a v s = .ok { s with mem := Memory.write s.mem a v } := by
  simp [memWrite, (inMemory_iff a).2 h]

theorem memWrite_of_gt {a : Nat} (v : Byte) (s : State) (h : 255 < a) :
    memWrite a v s = .error (.addressFault a) := by
  simp [memWrite, inMemory, Config.memSize]; omega

/-- A checked write keeps the canonical form of memory. -/
theorem memWrite_wf {a : Nat} {v : Byte} {s t : State} (h : Memory.wf s.mem = true) (hw : memWrite a v s = .ok t) :
    Memory.wf t.mem = true := by
  by_cases ha : a ≤ 255
  · rw [memWrite_of_le v s ha] at hw
    cases hw
    exact Memory.wf_write h (by simp only [Config.memSize]; omega) v
  · rw [memWrite_of_gt v s (by omega)] at hw
    cases hw

/-- The stack pointer is a byte, so a stack access is always in range (R53). -/
theorem spAddress_le (s : State) : spAddress s ≤ 255 := by
  have := (readReg .r7 s).isLt
  simp only [spAddress]; omega

theorem pushAddress_le (s : State) : pushAddress s ≤ 255 := spAddress_le (decSp s)

theorem spAddress_decSp (s : State) : spAddress (decSp s) = pushAddress s := rfl

theorem pushAddress_eq (s : State) : pushAddress s = (readReg .r7 s - 1#8).toNat := by
  simp [pushAddress, spAddress, decSp]

/-- An instruction answers a next state in one of two ways: it completed, or it entered a fault from where it began;
it never answers anything else. -/
theorem complete_cases (s : State) (r : Except FaultKind State) :
    (∃ t, r = .ok t ∧ complete s r = .next t) ∨ (∃ f, r = .error f ∧ complete s r = .next (enterFault f s)) := by
  cases r with
  | ok t => exact .inl ⟨t, rfl, rfl⟩
  | error f => exact .inr ⟨f, rfl, rfl⟩

@[simp] theorem complete_ok (s t : State) : complete s (.ok t) = .next t := rfl

@[simp] theorem complete_error (s : State) (f : FaultKind) : complete s (.error f) = raise f s := rfl

end Sys2Proof.Machine
end

