-- ==== Sys2Proof/Laws/Exec.lean ====
section
/-! SUPPORT. One specification lemma per meaning and form: what it answers, in terms of the shared operations, so that
no later proof unfolds a meaning. -/

namespace Sys2Proof.Machine

theorem execLoadImmediate_eq (r : Reg) (imm : Byte) (s : State) :
    execLoadImmediate (byteOfReg r) imm s = .next (setPc (s.pc + 3) (writeReg r imm s)) := by
  rw [execLoadImmediate, registerOperand_byteOfReg]; rfl

theorem execLoadImmediate_bad {ra : Byte} (h : 7 < ra.toNat) (imm : Byte) (s : State) :
    execLoadImmediate ra imm s = raise (.registerIndexFault ra) s := by
  rw [execLoadImmediate, registerOperand_of_lt h]; rfl

theorem execPrintRegister_eq (r : Reg) (s : State) :
    execPrintRegister (byteOfReg r) s = .next (setPc (s.pc + 2) (emit (readReg r s) s)) := by
  rw [execPrintRegister, registerOperand_byteOfReg]; rfl

theorem execPrintRegister_bad {ra : Byte} (h : 7 < ra.toNat) (s : State) :
    execPrintRegister ra s = raise (.registerIndexFault ra) s := by
  rw [execPrintRegister, registerOperand_of_lt h]; rfl

theorem execAdd_eq (d r : Reg) (s : State) :
    execAdd (byteOfReg d) (byteOfReg r) s = .next (setPc (s.pc + 3) (aluApply .add d r s)) := by
  rw [execAdd, registerOperand_byteOfReg, registerOperand_byteOfReg]; rfl

theorem execAdd_bad_first {ra : Byte} (h : 7 < ra.toNat) (rb : Byte) (s : State) :
    execAdd ra rb s = raise (.registerIndexFault ra) s := by
  rw [execAdd, registerOperand_of_lt h]; rfl

theorem execAdd_bad_second (d : Reg) {rb : Byte} (h : 7 < rb.toNat) (s : State) :
    execAdd (byteOfReg d) rb s = raise (.registerIndexFault rb) s := by
  rw [execAdd, registerOperand_byteOfReg, registerOperand_of_lt h]; rfl

theorem execMultiply_eq (d r : Reg) (s : State) :
    execMultiply (byteOfReg d) (byteOfReg r) s = .next (setPc (s.pc + 3) (aluApply .multiply d r s)) := by
  rw [execMultiply, registerOperand_byteOfReg, registerOperand_byteOfReg]; rfl

theorem execMultiply_bad_first {ra : Byte} (h : 7 < ra.toNat) (rb : Byte) (s : State) :
    execMultiply ra rb s = raise (.registerIndexFault ra) s := by
  rw [execMultiply, registerOperand_of_lt h]; rfl

theorem execMultiply_bad_second (d : Reg) {rb : Byte} (h : 7 < rb.toNat) (s : State) :
    execMultiply (byteOfReg d) rb s = raise (.registerIndexFault rb) s := by
  rw [execMultiply, registerOperand_byteOfReg, registerOperand_of_lt h]; rfl

theorem execPush_eq (r : Reg) (s : State) :
    execPush (byteOfReg r) s =
      .next { decSp s with
        mem := Memory.write s.mem (pushAddress s) (readReg r (decSp s)), pc := s.pc + 2 } := by
  have h := memWrite_of_le (readReg r (decSp s)) (decSp s) (spAddress_le (decSp s))
  rw [execPush, registerOperand_byteOfReg]
  show complete s (memWrite _ _ _ >>= fun s2 => pure (setPc (s.pc + 2) s2)) = _
  rw [h]; rfl

theorem execPush_bad {ra : Byte} (h : 7 < ra.toNat) (s : State) :
    execPush ra s = raise (.registerIndexFault ra) s := by
  rw [execPush, registerOperand_of_lt h]; rfl

theorem execPop_eq (r : Reg) (s : State) :
    execPop (byteOfReg r) s =
      .next (setPc (s.pc + 2) (incSp (writeReg r (Memory.read s.mem (spAddress s)) s))) := by
  rw [execPop, registerOperand_byteOfReg, memRead_of_le s (spAddress_le s)]; rfl

theorem execPop_bad {ra : Byte} (h : 7 < ra.toNat) (s : State) :
    execPop ra s = raise (.registerIndexFault ra) s := by
  rw [execPop, registerOperand_of_lt h]; rfl

theorem returnAddress_of_le {s : State} (h : s.pc + 2 ≤ 255) : returnAddress s = .ok (trunc8 (s.pc + 2)) := by
  have : ¬ 255 < s.pc + 2 := by omega
  simp [returnAddress, this]

theorem returnAddress_of_gt {s : State} (h : 255 < s.pc + 2) :
    returnAddress s = .error (.returnAddressFault (s.pc + 2)) := by
  simp only [returnAddress, h, if_true]

theorem execCall_eq (r : Reg) {s : State} (h : s.pc + 2 ≤ 255) :
    execCall (byteOfReg r) s =
      .next { decSp s with
        mem := Memory.write s.mem (pushAddress s) (trunc8 (s.pc + 2)), pc := (readReg r (decSp s)).toNat } := by
  have hw := memWrite_of_le (trunc8 (s.pc + 2)) (decSp s) (spAddress_le (decSp s))
  rw [execCall, registerOperand_byteOfReg, returnAddress_of_le h]
  show complete s (memWrite _ _ _ >>= fun s2 => pure (setPc (readReg r s2).toNat s2)) = _
  rw [hw]; rfl

theorem execCall_bad {ra : Byte} (h : 7 < ra.toNat) (s : State) :
    execCall ra s = raise (.registerIndexFault ra) s := by
  rw [execCall, registerOperand_of_lt h]; rfl

theorem execCall_no_return_address (r : Reg) {s : State} (h : 255 < s.pc + 2) :
    execCall (byteOfReg r) s = raise (.returnAddressFault (s.pc + 2)) s := by
  rw [execCall, registerOperand_byteOfReg, returnAddress_of_gt h]; rfl

theorem execRet_eq (s : State) :
    execRet s = .next (setPc (Memory.read s.mem (spAddress s)).toNat (incSp s)) := by
  rw [execRet, memRead_of_le s (spAddress_le s)]; rfl

theorem execHalt_eq (s : State) : execHalt s = .next (setPc (s.pc + 1) (setStatus .halted s)) := rfl

@[simp] theorem trunc8_toNat (n : Nat) : (trunc8 n).toNat = n % 256 := rfl

/-- Everything an instruction can do: it completes in one of nine ways, or it raises a fault from the state it began
in, for an operand byte above 7 (whatever that state) or a return address that does not fit. -/
theorem exec_cases (i : Instr) (s : State) :
    (i = .halt ∧ exec i s = .next (setPc (s.pc + 1) (setStatus .halted s))) ∨
    (∃ r imm, i = .loadImmediate (byteOfReg r) imm ∧
      exec i s = .next (setPc (s.pc + 3) (writeReg r imm s))) ∨
    (∃ r, i = .printRegister (byteOfReg r) ∧ exec i s = .next (setPc (s.pc + 2) (emit (readReg r s) s))) ∨
    (∃ d r, i = .multiply (byteOfReg d) (byteOfReg r) ∧
      exec i s = .next (setPc (s.pc + 3) (aluApply .multiply d r s))) ∨
    (∃ d r, i = .add (byteOfReg d) (byteOfReg r) ∧
      exec i s = .next (setPc (s.pc + 3) (aluApply .add d r s))) ∨
    (∃ r, i = .push (byteOfReg r) ∧
      exec i s = .next { decSp s with
        mem := Memory.write s.mem (pushAddress s) (readReg r (decSp s)), pc := s.pc + 2 }) ∨
    (∃ r, i = .pop (byteOfReg r) ∧
      exec i s = .next (setPc (s.pc + 2) (incSp (writeReg r (Memory.read s.mem (spAddress s)) s)))) ∨
    (∃ r, i = .call (byteOfReg r) ∧ s.pc + 2 ≤ 255 ∧
      exec i s = .next { decSp s with
        mem := Memory.write s.mem (pushAddress s) (trunc8 (s.pc + 2)), pc := (readReg r (decSp s)).toNat }) ∨
    (i = .ret ∧ exec i s = .next (setPc (Memory.read s.mem (spAddress s)).toNat (incSp s))) ∨
    (∃ b, 7 < b.toNat ∧ ∀ s', exec i s' = .next (enterFault (.registerIndexFault b) s')) ∨
    (∃ r, i = .call (byteOfReg r) ∧ 255 < s.pc + 2 ∧
      exec i s = .next (enterFault (.returnAddressFault (s.pc + 2)) s)) := by
  cases i with
  | halt => exact .inl ⟨rfl, rfl⟩
  | loadImmediate ra imm =>
    rcases registerOperand_cases ra with ⟨r, rfl, -⟩ | ⟨h, -⟩
    · exact .inr (.inl ⟨r, imm, rfl, execLoadImmediate_eq r imm s⟩)
    · iterate 9 right
      exact .inl ⟨ra, h, execLoadImmediate_bad h imm⟩
  | printRegister ra =>
    rcases registerOperand_cases ra with ⟨r, rfl, -⟩ | ⟨h, -⟩
    · exact .inr (.inr (.inl ⟨r, rfl, execPrintRegister_eq r s⟩))
    · iterate 9 right
      exact .inl ⟨ra, h, execPrintRegister_bad h⟩
  | multiply ra rb =>
    rcases registerOperand_cases ra with ⟨d, rfl, -⟩ | ⟨h, -⟩
    · rcases registerOperand_cases rb with ⟨r, rfl, -⟩ | ⟨h, -⟩
      · iterate 3 right
        exact .inl ⟨d, r, rfl, execMultiply_eq d r s⟩
      · iterate 9 right
        exact .inl ⟨rb, h, execMultiply_bad_second d h⟩
    · iterate 9 right
      exact .inl ⟨ra, h, execMultiply_bad_first h rb⟩
  | add ra rb =>
    rcases registerOperand_cases ra with ⟨d, rfl, -⟩ | ⟨h, -⟩
    · rcases registerOperand_cases rb with ⟨r, rfl, -⟩ | ⟨h, -⟩
      · iterate 4 right
        exact .inl ⟨d, r, rfl, execAdd_eq d r s⟩
      · iterate 9 right
        exact .inl ⟨rb, h, execAdd_bad_second d h⟩
    · iterate 9 right
      exact .inl ⟨ra, h, execAdd_bad_first h rb⟩
  | push ra =>
    rcases registerOperand_cases ra with ⟨r, rfl, -⟩ | ⟨h, -⟩
    · iterate 5 right
      exact .inl ⟨r, rfl, execPush_eq r s⟩
    · iterate 9 right
      exact .inl ⟨ra, h, execPush_bad h⟩
  | pop ra =>
    rcases registerOperand_cases ra with ⟨r, rfl, -⟩ | ⟨h, -⟩
    · iterate 6 right
      exact .inl ⟨r, rfl, execPop_eq r s⟩
    · iterate 9 right
      exact .inl ⟨ra, h, execPop_bad h⟩
  | call ra =>
    rcases registerOperand_cases ra with ⟨r, rfl, -⟩ | ⟨h, -⟩
    · by_cases hp : s.pc + 2 ≤ 255
      · iterate 7 right
        exact .inl ⟨r, rfl, hp, execCall_eq r hp⟩
      · iterate 10 right
        exact ⟨r, rfl, by omega, execCall_no_return_address r (by omega)⟩
    · iterate 9 right
      exact .inl ⟨ra, h, execCall_bad h⟩
  | ret =>
    iterate 8 right
    exact .inl ⟨rfl, execRet_eq s⟩

/-- Every instruction answers a next state, from every state. -/
theorem exec_next (i : Instr) (s : State) : ∃ t, exec i s = .next t := by
  rcases exec_cases i s with ⟨-, h⟩ | ⟨_, _, -, h⟩ | ⟨_, -, h⟩ | ⟨_, _, -, h⟩ | ⟨_, _, -, h⟩ | ⟨_, -, h⟩ |
    ⟨_, -, h⟩ | ⟨_, -, -, h⟩ | ⟨-, h⟩ | ⟨_, -, h⟩ | ⟨_, -, -, h⟩ <;>
    first | exact ⟨_, h⟩ | exact ⟨_, h s⟩

end Sys2Proof.Machine
end

