-- ==== Sys2Proof/Laws/Fetch.lean ====
section
/-! SUPPORT. What the fetch can answer and when: the instruction whose bytes stand at `pc`, or one of the faults of
opcode fetch, decode and operand fetch. -/

namespace Sys2Proof.Machine

variable {s : State} {c : Config} {i : Instr} {f : FaultKind}

@[simp] theorem fetchBytes_zero (s : State) (a : Nat) : fetchBytes s a 0 = .ok [] := rfl

theorem fetchBytes_one (h : s.pc + 1 ≤ 255) :
    fetchBytes s (s.pc + 1) 1 = .ok [Memory.read s.mem (s.pc + 1)] := by
  rw [fetchBytes, memRead_of_le s h]; rfl

theorem fetchBytes_two (h : s.pc + 2 ≤ 255) :
    fetchBytes s (s.pc + 1) 2 = .ok [Memory.read s.mem (s.pc + 1), Memory.read s.mem (s.pc + 2)] := by
  rw [fetchBytes, memRead_of_le s (by omega : s.pc + 1 ≤ 255), fetchBytes,
    memRead_of_le s (by omega : s.pc + 1 + 1 ≤ 255)]; rfl

/-- With an opcode at an address 0 to 255, an operand fetch that passes 255 raises AddressFault(256). -/
theorem fetchBytes_past_end {n : Nat} (hpc : s.pc ≤ 255) (hn : n ≤ 2) (h : 255 < s.pc + n) :
    fetchBytes s (s.pc + 1) n = .error (.addressFault 256) := by
  have h012 : n = 0 ∨ n = 1 ∨ n = 2 := by omega
  rcases h012 with rfl | rfl | rfl
  · omega
  · have hp : s.pc + 1 = 256 := by omega
    rw [fetchBytes, hp, memRead_of_gt s (by omega)]; rfl
  · by_cases h1 : s.pc + 1 = 256
    · rw [fetchBytes, h1, memRead_of_gt s (by omega)]; rfl
    · have hp : s.pc + 1 + 1 = 256 := by omega
      rw [fetchBytes, memRead_of_le s (by omega : s.pc + 1 ≤ 255), fetchBytes, hp, memRead_of_gt s (by omega)]
      rfl

/-- Opcode fetch past the end of memory (R91). -/
theorem fetch_past_end (c : Config) (h : 255 < s.pc) : fetch c s = .error (.addressFault s.pc) := by
  rw [fetch, memRead_of_gt s h]; rfl

/-- The speculative operand read past the end of memory comes before decode (R93, R167). -/
theorem fetch_speculative_past_end (hc : c.speculativeOperandRead = true) (h : s.pc = 254 ∨ s.pc = 255) :
    fetch c s = .error (.addressFault 256) := by
  rw [fetch, memRead_of_le s (by omega), speculativeCount, if_pos hc]
  show (fetchBytes s (s.pc + 1) 2 >>= fun _ => _) = _
  rw [fetchBytes_past_end (by omega) (by omega) (by omega)]; rfl

theorem fetchBytes_speculative (hc : c.speculativeOperandRead = true → s.pc + 2 ≤ 255) :
    ∃ bs, fetchBytes s (s.pc + 1) (speculativeCount c) = .ok bs := by
  rw [speculativeCount]
  split
  · exact ⟨_, fetchBytes_two (hc (by assumption))⟩
  · exact ⟨_, rfl⟩

/-- Past the opcode fetch and the speculative read, the fetch is decode and operand fetch. -/
theorem fetch_eq (hpc : s.pc ≤ 255) (hc : c.speculativeOperandRead = true → s.pc + 2 ≤ 255) :
    fetch c s = (do
      let op ← decodeOpcode (Memory.read s.mem s.pc)
      let operands ← fetchBytes s (s.pc + 1) (operandCount (formatOf op))
      decodeFetched s.pc (Memory.read s.mem s.pc :: operands)) := by
  obtain ⟨bs, hbs⟩ := fetchBytes_speculative hc
  rw [fetch, memRead_of_le s hpc]
  show (fetchBytes s (s.pc + 1) (speculativeCount c) >>= fun _ => _) = _
  rw [hbs]; rfl

theorem fetch_illegal (hpc : s.pc ≤ 255) (hc : c.speculativeOperandRead = true → s.pc + 2 ≤ 255)
    (h : opcodeOf? (Memory.read s.mem s.pc) = none) :
    fetch c s = .error (.illegalOpcode (Memory.read s.mem s.pc)) := by
  rw [fetch_eq hpc hc, decodeOpcode, h]; rfl

theorem fetch_operands_past_end {op : Opcode} (hpc : s.pc ≤ 255)
    (hc : c.speculativeOperandRead = true → s.pc + 2 ≤ 255) (h : opcodeOf? (Memory.read s.mem s.pc) = some op)
    (hn : 255 < s.pc + operandCount (formatOf op)) : fetch c s = .error (.addressFault 256) := by
  rw [fetch_eq hpc hc, decodeOpcode, h]
  show (fetchBytes s (s.pc + 1) _ >>= fun _ => _) = _
  rw [fetchBytes_past_end hpc (operandCount_le_two _) hn]; rfl

/-- The instruction an opcode makes with the two bytes after it. -/
def instrOf (op : Opcode) (b1 b2 : Byte) : Instr :=
  match op with
  | .halt => .halt
  | .loadImmediate => .loadImmediate b1 b2
  | .printRegister => .printRegister b1
  | .multiply => .multiply b1 b2
  | .add => .add b1 b2
  | .push => .push b1
  | .pop => .pop b1
  | .call => .call b1
  | .ret => .ret

theorem fetch_instr {op : Opcode} (hc : c.speculativeOperandRead = true → s.pc + 2 ≤ 255)
    (h : opcodeOf? (Memory.read s.mem s.pc) = some op) (hn : s.pc + operandCount (formatOf op) ≤ 255) :
    fetch c s = .ok (instrOf op (Memory.read s.mem (s.pc + 1)) (Memory.read s.mem (s.pc + 2))) := by
  rw [fetch_eq (by omega) hc, decodeOpcode, h]
  show (fetchBytes s (s.pc + 1) _ >>= fun _ => _) = _
  cases op <;> simp only [formatOf, operandCount] at hn ⊢ <;>
    first
    | rw [fetchBytes_two hn]
    | rw [fetchBytes_one hn]
    | rw [fetchBytes_zero]
  all_goals
    show decodeFetched _ _ = _
    rw [decodeFetched, decode_cons_of_some h]
    rfl

/-- Everything the fetch can answer. -/
theorem fetch_cases (c : Config) (s : State) :
    (255 < s.pc ∧ fetch c s = .error (.addressFault s.pc)) ∨
    (s.pc ≤ 255 ∧ c.speculativeOperandRead = true ∧ 255 < s.pc + 2 ∧ fetch c s = .error (.addressFault 256)) ∨
    (s.pc ≤ 255 ∧ (c.speculativeOperandRead = true → s.pc + 2 ≤ 255) ∧
      opcodeOf? (Memory.read s.mem s.pc) = none ∧
      fetch c s = .error (.illegalOpcode (Memory.read s.mem s.pc))) ∨
    (∃ op, s.pc ≤ 255 ∧ (c.speculativeOperandRead = true → s.pc + 2 ≤ 255) ∧
      opcodeOf? (Memory.read s.mem s.pc) = some op ∧ 255 < s.pc + operandCount (formatOf op) ∧
      fetch c s = .error (.addressFault 256)) ∨
    (∃ op, (c.speculativeOperandRead = true → s.pc + 2 ≤ 255) ∧
      opcodeOf? (Memory.read s.mem s.pc) = some op ∧ s.pc + operandCount (formatOf op) ≤ 255 ∧
      fetch c s = .ok (instrOf op (Memory.read s.mem (s.pc + 1)) (Memory.read s.mem (s.pc + 2)))) := by
  by_cases hpc : s.pc ≤ 255
  · by_cases hc : c.speculativeOperandRead = true → s.pc + 2 ≤ 255
    · cases h : opcodeOf? (Memory.read s.mem s.pc) with
      | none => exact .inr (.inr (.inl ⟨hpc, hc, rfl, fetch_illegal hpc hc h⟩))
      | some op =>
        by_cases hn : s.pc + operandCount (formatOf op) ≤ 255
        · exact .inr (.inr (.inr (.inr ⟨op, hc, rfl, hn, fetch_instr hc h hn⟩)))
        · have hn' : 255 < s.pc + operandCount (formatOf op) := by omega
          exact .inr (.inr (.inr (.inl ⟨op, hpc, hc, rfl, hn', fetch_operands_past_end hpc hc h hn'⟩)))
    · have hs : c.speculativeOperandRead = true := by
        by_contra hs; exact hc (fun h => absurd h hs)
      have h2 : 255 < s.pc + 2 := by
        by_contra h2; exact hc (fun _ => by omega)
      exact .inr (.inl ⟨hpc, hs, h2, fetch_speculative_past_end hs (by omega)⟩)
  · exact .inl ⟨by omega, fetch_past_end c (by omega)⟩

theorem stepWith_running (h : s.status = .running) (c : Config) :
    stepWith c s = match fetch c s with
      | .error f => raise f s
      | .ok i => exec i s := by
  cases hf : fetch c s <;> simp only [stepWith, h, hf]

theorem stepWith_of_fetch (h : s.status = .running) (hf : fetch c s = .ok i) : stepWith c s = exec i s := by
  rw [stepWith_running h, hf]

theorem stepWith_of_fault (h : s.status = .running) (hf : fetch c s = .error f) :
    stepWith c s = .next (enterFault f s) := by
  rw [stepWith_running h, hf]; rfl

/-- Placing an instruction keeps the canonical form of memory. -/
theorem wf_withFetchWord (h : Memory.wf s.mem = true) (hpc : s.pc ≤ 256) (nbits w : Nat) :
    Memory.wf (s.withFetchWord nbits w).mem = true := by
  refine wf_storeBytes h s.pc _ ?_
  simp only [List.length_take, Config.memSize]
  omega

/-- Only a RUNNING engine takes a step, and the step is a fault of the fetch or the instruction fetched. -/
theorem stepWith_next_cases {t : State} (h : stepWith c s = .next t) :
    s.status = .running ∧
      ((∃ f, fetch c s = .error f ∧ t = enterFault f s) ∨ ∃ i, fetch c s = .ok i ∧ exec i s = .next t) := by
  cases hs : s.status with
  | halted => rw [stepWith, hs] at h; cases h
  | faulted => rw [stepWith, hs] at h; cases h
  | running =>
    refine ⟨rfl, ?_⟩
    rw [stepWith_running hs] at h
    cases hf : fetch c s with
    | error f => rw [hf] at h; exact .inl ⟨f, rfl, by injection h with h; exact h.symm⟩
    | ok i => rw [hf] at h; exact .inr ⟨i, rfl, h⟩

end Sys2Proof.Machine
end

