-- ==== Sys2Proof/Laws/Claims.lean ====
section
/-! SUPPORT. Small lemmas that join the terms the statements are written in to the model's own operations. -/

namespace Sys2Proof.Claims

open Sys2Proof.Machine

@[simp] theorem x_byteOfReg (s : State) (r : Reg) : x s (byteOfReg r).toNat = readReg r s := by
  cases r <;> rfl

theorem x_seven (s : State) : x s 7 = readReg .r7 s := rfl

theorem spAddress_eq_x (s : State) : spAddress s = (x s 7).toNat := rfl

theorem M_eq (s : State) (a : Nat) : M s a = Memory.read s.mem a := rfl

@[simp] theorem faulted_eq (f : FaultKind) (s : State) : faulted f s = enterFault f s := rfl

theorem byteOfReg_injective {q r : Reg} (h : (byteOfReg q).toNat = (byteOfReg r).toNat) : q = r := by
  revert h; cases q <;> cases r <;> decide

/-- A register number up to 7 is the number of a register's byte. -/
theorem exists_reg_of_le {i : Nat} (h : i ≤ 7) : ∃ r, i = (byteOfReg r).toNat := by
  interval_cases i
  exacts [⟨.r0, rfl⟩, ⟨.r1, rfl⟩, ⟨.r2, rfl⟩, ⟨.r3, rfl⟩, ⟨.r4, rfl⟩, ⟨.r5, rfl⟩, ⟨.r6, rfl⟩, ⟨.r7, rfl⟩]

/-- A register frame, said over the register names. -/
theorem registersSameBut_of {s t : State} {written : List Reg}
    (h : ∀ q, q ∉ written → readReg q t = readReg q s) :
    RegistersSameBut (written.map fun r => (byteOfReg r).toNat) s t := by
  intro i hi hnot
  obtain ⟨q, rfl⟩ := exists_reg_of_le hi
  rw [x_byteOfReg, x_byteOfReg]
  exact h q fun hq => hnot (List.mem_map_of_mem hq)

/-- How many operand bytes of a format are register operands (R72, R94). -/
def registerOperands : Format → Nat
  | .N => 0
  | .R => 1
  | .RI => 1
  | .RR => 2

/-- The operand counts that the opcode map gives an opcode byte, as the table writes them. -/
def countsOf (b0 : Byte) : Option (Nat × Nat) :=
  (opcodeOf? b0).map fun op => (operandCount (formatOf op), registerOperands (formatOf op))

/-- Every row of the table agrees with the opcode map. -/
theorem opcodeTable_agrees : ∀ row ∈ opcodeTable, countsOf row.1 = some row.2 := by decide

/-- The table has a row for every opcode of the map. -/
theorem opcodeTable_complete {b0 : Byte} {op : Opcode} (h : opcodeOf? b0 = some op) :
    (b0, operandCount (formatOf op), registerOperands (formatOf op)) ∈ opcodeTable := by
  rw [opcodeOf?_eq_some_iff] at h
  cases op <;> subst h <;> decide

/-- A listed opcode and the opcode map: the row of each opcode. -/
theorem mem_opcodeTable_iff (b0 : Byte) (n m : Nat) :
    (b0, n, m) ∈ opcodeTable ↔
      ∃ op, opcodeOf? b0 = some op ∧ n = operandCount (formatOf op) ∧ m = registerOperands (formatOf op) := by
  constructor
  · intro h
    obtain ⟨op, hop, hrow⟩ := Option.map_eq_some_iff.1 (opcodeTable_agrees _ h)
    exact ⟨op, hop, (congrArg Prod.fst hrow).symm, (congrArg Prod.snd hrow).symm⟩
  · rintro ⟨op, h, rfl, rfl⟩
    exact opcodeTable_complete h

theorem listed_iff (b0 : Byte) : Listed b0 ↔ ∃ op, opcodeOf? b0 = some op := by
  constructor
  · rintro ⟨n, m, h⟩
    obtain ⟨op, h, -⟩ := (mem_opcodeTable_iff b0 n m).1 h
    exact ⟨op, h⟩
  · rintro ⟨op, h⟩
    exact ⟨_, _, (mem_opcodeTable_iff b0 _ _).2 ⟨op, h, rfl, rfl⟩⟩

theorem not_listed_iff (b0 : Byte) : ¬ Listed b0 ↔ opcodeOf? b0 = none := by
  rw [listed_iff]; cases opcodeOf? b0 <;> simp

end Sys2Proof.Claims
end

