-- ==== Sys2Proof/Laws/PerInstr.lean ====
section
/-! SUPPORT. Statements made per instruction: the encoded form of every instruction. -/

namespace Sys2Proof.Laws

/-- The encoding of the instruction is an opcode byte that the opcode map gives to its own opcode, followed by exactly
the operand bytes of that opcode's format (R71, R72, R74). -/
def EncodedForm.Statement (i : Instr) : Prop :=
  ∃ b0 operands, encode i = b0 :: operands ∧ opcodeOf? b0 = some (opcodeOfInstr i) ∧
    operands.length = operandCount (formatOf (opcodeOfInstr i))

theorem EncodedForm.halt : EncodedForm.Statement .halt :=
  ⟨0x01#8, [], rfl, rfl, rfl⟩

theorem EncodedForm.loadImmediate (ra imm : Byte) : EncodedForm.Statement (.loadImmediate ra imm) :=
  ⟨0x82#8, [ra, imm], rfl, rfl, rfl⟩

theorem EncodedForm.printRegister (ra : Byte) : EncodedForm.Statement (.printRegister ra) :=
  ⟨0x47#8, [ra], rfl, rfl, rfl⟩

theorem EncodedForm.multiply (ra rb : Byte) : EncodedForm.Statement (.multiply ra rb) :=
  ⟨0xA2#8, [ra, rb], rfl, rfl, rfl⟩

theorem EncodedForm.add (ra rb : Byte) : EncodedForm.Statement (.add ra rb) :=
  ⟨0xA0#8, [ra, rb], rfl, rfl, rfl⟩

theorem EncodedForm.push (ra : Byte) : EncodedForm.Statement (.push ra) :=
  ⟨0x45#8, [ra], rfl, rfl, rfl⟩

theorem EncodedForm.pop (ra : Byte) : EncodedForm.Statement (.pop ra) :=
  ⟨0x46#8, [ra], rfl, rfl, rfl⟩

theorem EncodedForm.call (ra : Byte) : EncodedForm.Statement (.call ra) :=
  ⟨0x50#8, [ra], rfl, rfl, rfl⟩

theorem EncodedForm.ret : EncodedForm.Statement .ret :=
  ⟨0x11#8, [], rfl, rfl, rfl⟩

end Sys2Proof.Laws
end

