-- ==== Sys2Proof/Tests/Slice0.lean ====
section
/-! SUPPORT. Tests.  Expected values come from spec/30_encoding.md (R74, R83) and from the vectors of
spec/95_test_vectors.md, named in each comment; then one witness for the hypotheses of each statement of
Certificates/Slice0/Obligations.lean. -/

namespace Sys2Proof.Tests

open Sys2Proof.Machine Sys2Proof.Claims

/-! ### Well-formedness refuses an ill-formed operand, one test per check -/

theorem test_wf_loadImmediate_ra : (Instr.loadImmediate 8 0).wf = false := by decide
theorem test_wf_loadImmediate_any_imm : (Instr.loadImmediate 7 255).wf = true := by decide
theorem test_wf_printRegister_ra : (Instr.printRegister 9).wf = false := by decide
theorem test_wf_multiply_ra : (Instr.multiply 8 0).wf = false := by decide
theorem test_wf_multiply_rb : (Instr.multiply 0 8).wf = false := by decide
theorem test_wf_add_ra : (Instr.add 255 0).wf = false := by decide
theorem test_wf_add_rb : (Instr.add 0 255).wf = false := by decide
theorem test_wf_push_ra : (Instr.push 8).wf = false := by decide
theorem test_wf_pop_ra : (Instr.pop 8).wf = false := by decide
theorem test_wf_call_ra : (Instr.call 12).wf = false := by decide

/-! ### Words written out from R74's table, as the table numbers them (first byte lowest) -/

theorem test_decode_halt : decodeTableWord 8 0b00000001 = some .halt := by decide
theorem test_decode_loadImmediate :
    decodeTableWord 24 0b00101010_00000011_10000010 = some (.loadImmediate 3 42) := by decide
theorem test_decode_printRegister : decodeTableWord 16 0b00000100_01000111 = some (.printRegister 4) := by decide
theorem test_decode_multiply :
    decodeTableWord 24 0b00000001_00000000_10100010 = some (.multiply 0 1) := by decide
theorem test_decode_add : decodeTableWord 24 0b00000010_00000101_10100000 = some (.add 5 2) := by decide
theorem test_decode_push : decodeTableWord 16 0b00000010_01000101 = some (.push 2) := by decide
theorem test_decode_pop : decodeTableWord 16 0b00000111_01000110 = some (.pop 7) := by decide
theorem test_decode_call : decodeTableWord 16 0b00000001_01010000 = some (.call 1) := by decide
theorem test_decode_ret : decodeTableWord 8 0b00010001 = some .ret := by decide
/-- An operand byte above 7 is consumed, not rejected (R78). -/
theorem test_decode_keeps_operand_byte : decodeTableWord 16 0x0847 = some (.printRegister 8) := by decide
/-- V-E3, V-E4: one-bit neighbours of ADD and LOAD_IMMEDIATE are illegal. -/
theorem test_decode_neighbours :
    decode [0xA1#8, 0, 0] = .error (.illegalOpcode 0xA1#8) ∧ decode [0x83#8, 0, 0] = .error (.illegalOpcode 0x83#8) := by
  decide

/-! ### One step on a small state -/

/-- The state after reset with these bytes standing at `pc`. -/
def atPc (pc : Nat) (bytes : List Byte) : State := { State.reset with pc := pc, mem := storeBytes [] pc bytes }

/-- The state with register `r` holding `v`. -/
def withReg (r : Reg) (v : Byte) (s : State) : State := writeReg r v s

/-- The state with `M[a]` = `v`. -/
def withMem (a : Nat) (v : Byte) (s : State) : State := { s with mem := Memory.write s.mem a v }

/-- A field of the next state, `none` where there is none. -/
def after {α : Type} (r : Result) (f : State → α) : Option α :=
  match r with
  | .next t => some (f t)
  | .fault _ => none
  | .refused _ => none

/-- The fault record with this kind and `pc`. -/
def record (k : FaultKind) (pc : Nat) : Option FaultRecord := some { kind := k, fpc := pc }

/-- V-E1: an empty image faults at the zero fill. -/
theorem test_step_empty_image :
    after (step State.reset) (fun t => (t.status, t.fault)) = some (.faulted, record (.illegalOpcode 0) 0) := by decide
/-- V-E6: the speculative operand read precedes decode. -/
theorem test_step_speculative_before_decode :
    after (stepWith speculative (atPc 255 [0x02])) (·.fault) = some (record (.addressFault 256) 255) := by decide
/-- V-E7: fetch at 256. -/
theorem test_step_pc_256 : after (step (atPc 256 [])) (·.fault) = some (record (.addressFault 256) 256) := by decide

/-- V-H2: a HALT at 255 ends with pc = 256 and no fault. -/
theorem test_halt_at_255 :
    after (step (atPc 255 [0x01])) (fun t => (t.status, t.pc, t.fault)) = some (.halted, 256, none) := by decide
/-- V-H4: with SPECULATIVE_OPERAND_READ a HALT at 254 faults. -/
theorem test_halt_speculative :
    after (stepWith speculative (atPc 254 [0x01])) (·.fault) = some (record (.addressFault 256) 254) := by decide

/-- V-L3: LOAD_IMMEDIATE at 253. -/
theorem test_loadImmediate_at_253 :
    after (step (atPc 253 [0x82, 0x00, 0x07])) (fun t => (readReg .r0 t, t.pc)) = some (7, 256) := by decide
/-- V-L4: its immediate is at 256. -/
theorem test_loadImmediate_at_254 :
    after (step (atPc 254 [0x82, 0x00])) (·.fault) = some (record (.addressFault 256) 254) := by decide

/-- V-P2: PRINT_REGISTER r7. -/
theorem test_printRegister_sp : after (step (atPc 0 [0x47, 0x07])) (·.out) = some [244] := by decide
/-- V-P7: register index 9. -/
theorem test_printRegister_index :
    after (step (atPc 0 [0x47, 0x09])) (fun t => (t.fault, t.out)) = some (record (.registerIndexFault 9) 0, []) := by
  decide

/-- V-A5: ADD of one register to itself, 400 mod 256. -/
theorem test_add_same_register :
    after (step (withReg .r2 200 (atPc 0 [0xA0, 0x02, 0x02]))) (readReg .r2) = some 144 := by decide
/-- V-A9: the first operand is checked first. -/
theorem test_add_index_order :
    after (step (atPc 0 [0xA0, 0x09, 0x0A])) (·.fault) = some (record (.registerIndexFault 9) 0) := by decide

/-- V-M3: 65025 mod 256. -/
theorem test_multiply_wraps :
    after (step (withReg .r1 255 (withReg .r0 255 (atPc 0 [0xA2, 0x00, 0x01])))) (readReg .r0) = some 1 := by decide
/-- V-M8: MULTIPLY at 253. -/
theorem test_multiply_at_253 :
    after (step (withReg .r1 3 (withReg .r0 2 (atPc 253 [0xA2, 0x00, 0x01])))) (fun t => (readReg .r0 t, t.pc)) =
      some (6, 256) := by decide

/-- V-S2: PUSH at SP = 0. -/
theorem test_push_wraps :
    after (step (withReg .r7 0 (withReg .r0 0x2A (atPc 0 [0x45, 0x00]))))
      (fun t => (readReg .r7 t, Memory.read t.mem 0xFF)) = some (0xFF, 0x2A) := by decide
/-- V-S3: PUSH r7 stores the decremented stack pointer. -/
theorem test_push_sp :
    after (step (atPc 0 [0x45, 0x07])) (fun t => (readReg .r7 t, Memory.read t.mem 0xF3)) = some (0xF3, 0xF3) := by
  decide

/-- V-S5: POP at SP = 255. -/
theorem test_pop_wraps :
    after (step (withMem 0xFF 0x77 (withReg .r7 0xFF (atPc 0 [0x46, 0x00]))))
      (fun t => (readReg .r0 t, readReg .r7 t)) = some (0x77, 0) := by decide
/-- V-S7: POP r7 ends with the byte plus one. -/
theorem test_pop_sp :
    after (step (withMem 0xF3 0x10 (withReg .r7 0xF3 (atPc 0 [0x46, 0x07])))) (readReg .r7) = some 0x11 := by decide

/-- V-C3: CALL r7 jumps to the decremented stack pointer. -/
theorem test_call_sp :
    after (step (atPc 0 [0x50, 0x07])) (fun t => (readReg .r7 t, Memory.read t.mem 0xF3, t.pc)) =
      some (0xF3, 2, 0xF3) := by decide
/-- V-C5: a return address of 256 does not fit. -/
theorem test_call_at_254 :
    after (step (atPc 254 [0x50, 0x01])) (fun t => (t.fault, readReg .r7 t)) =
      some (record (.returnAddressFault 256) 254, 0xF4) := by decide

/-- V-R2: RETURN with nothing pushed. -/
theorem test_ret_empty_stack :
    after (step (atPc 0 [0x11])) (fun t => (t.pc, readReg .r7 t)) = some (0, 0xF5) := by decide
/-- V-R3: RETURN at SP = 255. -/
theorem test_ret_wraps :
    after (step (withMem 0xFF 0x20 (withReg .r7 0xFF (atPc 0 [0x11])))) (fun t => (t.pc, readReg .r7 t)) =
      some (0x20, 0) := by decide

/-- The codes and info values of the table of fault kinds (spec/60_exceptions.md section 2). -/
theorem test_fault_codes :
    [FaultKind.illegalOpcode 0xFF, .addressFault 256, .registerIndexFault 8, .returnAddressFault 256, .aluUnsupported].map
      (fun k => (k.code, k.info)) = [(1, some 255), (2, some 256), (3, some 8), (4, some 256), (5, none)] := by decide

/-- L1-P6: the dump's bytes and exit code after an unrecognized opcode at 3. -/
theorem test_dump :
    after (step (withReg .r3 9 (atPc 3 [0xFF]))) (fun t => ((faultDump t).map (·.nextBytes), hostExitCode t)) =
      some (some [0xFF, 0, 0], some 1) := by decide

/-- `withFetchWord` places the instruction the next step runs: LOAD_IMMEDIATE r0,8 (R83). -/
theorem test_withFetchWord :
    after (step (State.reset.withFetchWord 24 0x080082)) (fun t => (readReg .r0 t, t.pc)) = some (8, 3) := by decide

/-! ### Witnesses: a concrete state and operands that meet the hypotheses of each statement -/

/-- Bytes stored by `atPc` stand at `pc`. -/
theorem atPc_stands (pc : Nat) (bytes : List Byte) (h : pc + bytes.length ≤ 256) : StandsAtPc bytes (atPc pc bytes) := by
  intro k b hk
  have hlt : k < bytes.length := (List.getElem?_eq_some_iff.1 hk).1
  refine ⟨by show pc + k ≤ 255; omega, ?_⟩
  show Memory.read (storeBytes [] pc bytes) (pc + k) = b
  rw [read_storeBytes (m := []) rfl pc bytes h (pc + k)]
  have h1 : pc ≤ pc + k := by omega
  simp [hk]

/-- Canonical memory stored by `atPc`, below the top of memory. -/
theorem atPc_wf (pc : Nat) (bytes : List Byte) (h : pc + bytes.length ≤ 256) : Memory.wf (atPc pc bytes).mem = true :=
  wf_storeBytes (m := []) rfl pc bytes h

theorem witness_UnlistedOpcodesAreRejected : ¬ Listed 0xA1#8 ∧ ¬ Listed 0x00#8 ∧ Listed 0xA0#8 :=
  ⟨(not_listed_iff _).2 (by decide), (not_listed_iff _).2 (by decide), (listed_iff _).2 ⟨.add, by decide⟩⟩

theorem witness_TruncatedInstructionsAreRejected : 2 < (encode (.add 0 1)).length ∧ 0 < (encode .halt).length := by
  decide

/-- The last address where a 3-byte instruction runs under both settings. -/
theorem witness_StepRunsTheDecodedInstruction :
    (atPc 253 [0xA0, 0x07, 0x00]).status = .running ∧ StandsAtPc [0xA0, 0x07, 0x00] (atPc 253 [0xA0, 0x07, 0x00]) ∧
      decode [0xA0, 0x07, 0x00] = .ok (.add 7 0, []) ∧ (atPc 253 [0xA0, 0x07, 0x00]).pc + 2 ≤ 255 :=
  ⟨rfl, atPc_stands 253 _ (by decide), rfl, by decide⟩

theorem witness_OpcodeSelectsTheInstruction_illegal :
    (atPc 255 [0x02]).status = .running ∧ (atPc 255 [0x02]).pc ≤ 255 ∧ nonSpeculative.speculativeOperandRead = false ∧
      ¬ Listed (M (atPc 255 [0x02]) 255) :=
  ⟨rfl, by decide, rfl, (not_listed_iff _).2 (by decide)⟩

theorem witness_OpcodeSelectsTheInstruction_listed :
    (atPc 253 [0x82, 0, 7]).status = .running ∧ (atPc 253 [0x82, 0, 7]).pc + 2 ≤ 255 ∧
      (M (atPc 253 [0x82, 0, 7]) 253, 2, 1) ∈ opcodeTable := by decide

theorem witness_EngineStepsExactlyWhileRunning :
    State.reset.status = .running ∧ (setStatus .halted State.reset).status = .halted ∧
      (enterFault (.illegalOpcode 0) State.reset).status = .faulted := by decide

theorem witness_FaultsAreRaisedInTheGivenOrder_fetch :
    (atPc 256 []).status = .running ∧ 256 ≤ (atPc 256 []).pc ∧ speculative.speculativeOperandRead = true ∧
      (atPc 254 [0x02]).status = .running ∧ (atPc 254 [0x02]).pc = 254 ∧ (atPc 255 [0x01]).pc = 255 := by decide

theorem witness_FaultsAreRaisedInTheGivenOrder_illegal :
    (atPc 253 [0xFF]).status = .running ∧ (atPc 253 [0xFF]).pc ≤ 253 ∧ ¬ Listed (M (atPc 253 [0xFF]) 253) ∧
      (atPc 255 [0xFF]).pc ≤ 255 ∧ ¬ Listed (M (atPc 255 [0xFF]) 255) :=
  ⟨rfl, by decide, (not_listed_iff _).2 (by decide), by decide, (not_listed_iff _).2 (by decide)⟩

theorem witness_FaultsAreRaisedInTheGivenOrder_operands :
    (M (atPc 254 [0x82, 0]) 254, 2, 1) ∈ opcodeTable ∧ 255 < (atPc 254 [0x82, 0]).pc + 2 ∧
      (M (atPc 255 [0x47]) 255, 1, 1) ∈ opcodeTable ∧ 255 < (atPc 255 [0x47]).pc + 1 := by decide

theorem witness_FaultsAreRaisedInTheGivenOrder_registers :
    (M (atPc 253 [0xA0, 8, 0]) 253, 2, 2) ∈ opcodeTable ∧ 7 < (M (atPc 253 [0xA0, 8, 0]) 254).toNat ∧
      (M (atPc 253 [0xA2, 7, 8]) 253, 2, 2) ∈ opcodeTable ∧ (M (atPc 253 [0xA2, 7, 8]) 254).toNat ≤ 7 ∧
      7 < (M (atPc 253 [0xA2, 7, 8]) 255).toNat := by decide

theorem witness_FaultsAreRaisedInTheGivenOrder_call :
    nonSpeculative.speculativeOperandRead = false ∧ (M (atPc 254 [0x50, 7]) 254, 1, 1) ∈ opcodeTable ∧
      M (atPc 254 [0x50, 7]) 254 = 0x50#8 ∧ (atPc 254 [0x50, 7]).pc = 254 ∧ (M (atPc 254 [0x50, 7]) 255).toNat ≤ 7 := by
  decide

theorem witness_SettingsDifferOnlyAtTheTopOfMemory : (atPc 253 [0x01]).pc ≠ 254 ∧ (atPc 256 []).pc ≠ 255 := by decide

theorem witness_FaultingStepChangesNothingElse :
    after (stepWith nonSpeculative (atPc 255 [0x02])) (·.status) = some .faulted := by decide

/-- A completed step for every row of the `pc` table. -/
theorem witness_ProgramCounterFollowsTheTable :
    after (step (atPc 255 [0x01])) (·.status) = some .halted ∧
      after (step (atPc 254 [0x47, 7])) (·.status) = some .running ∧
      after (step (atPc 253 [0x82, 7, 1])) (·.status) = some .running ∧
      after (step (atPc 253 [0x50, 7])) (·.status) = some .running ∧
      after (step (atPc 255 [0x11])) (·.status) = some .running := by decide

theorem witness_OnlyPrintRegisterEmits :
    after (step (atPc 254 [0x47, 7])) (·.out) = some [0xF4] ∧ after (step (atPc 255 [0x11])) (·.out) = some [] := by
  decide

theorem witness_OnlyPushAndCallWriteMemory :
    after (step (atPc 253 [0x50, 1])) (fun t => decide (M t 0xF3 ≠ M (atPc 253 [0x50, 1]) 0xF3)) = some true ∧
      after (step (withReg .r7 0 (atPc 0 [0x45, 7]))) (fun t => decide (M t 255 ≠ 0)) = some true := by decide

theorem witness_OnlyTheNamedRegistersChange :
    after (step (atPc 253 [0x82, 0, 9])) (fun t => decide (x t 0 ≠ x (atPc 253 [0x82, 0, 9]) 0)) = some true ∧
      after (step (atPc 255 [0x11])) (fun t => decide (x t 7 ≠ x (atPc 255 [0x11]) 7)) = some true := by decide

/-- A second memory that agrees on the fetched cells and on the cell at the stack pointer, and differs elsewhere. -/
theorem witness_StepReadsOnlyFetchAndStackCells :
    Memory.wf (atPc 0 [0x45, 2]).mem = true ∧ Memory.wf (withMem 9 1 (atPc 0 [0x45, 2])).mem = true ∧
      (∀ a, a = (atPc 0 [0x45, 2]).pc ∨ a = (atPc 0 [0x45, 2]).pc + 1 ∨ a = (atPc 0 [0x45, 2]).pc + 2 ∨
          a = (x (atPc 0 [0x45, 2]) 7).toNat →
        Memory.read (withMem 9 1 (atPc 0 [0x45, 2])).mem a = M (atPc 0 [0x45, 2]) a) ∧
      after (step (atPc 0 [0x45, 2])) (·.pc) = some 2 := by
  refine ⟨by decide, by decide, ?_, by decide⟩
  rintro a (rfl | rfl | rfl | rfl) <;> decide

theorem witness_IllFormedInstructionsRaiseRegisterIndexFault :
    State.reset.status = .running ∧ (Instr.add 7 8).wf = false ∧
      after (exec (.add 7 8) State.reset) (·.fault) = some (record (.registerIndexFault 8) 0) := by decide

/-- The hypotheses of every `AddressFaults` clause, for an opcode with two operands, one and none. -/
theorem witness_AddressFaults :
    (atPc 256 []).status = .running ∧ (atPc 256 []).pc = 256 ∧
      M (atPc 255 [0x82]) 255 = 0x82#8 ∧ M (atPc 254 [0x82]) 254 = 0x82#8 ∧
      M (atPc 255 [0x47]) 255 = 0x47#8 ∧ M (atPc 254 [0x47]) 254 = 0x47#8 ∧
      M (atPc 255 [0x11]) 255 = 0x11#8 ∧ M (atPc 254 [0x11]) 254 = 0x11#8 ∧
      (atPc 255 [0x82]).pc = 255 ∧ (atPc 254 [0x82]).pc = 254 ∧ speculative.speculativeOperandRead = true := by decide

theorem witness_HaltStopsTheEngine :
    (atPc 255 [0x01]).status = .running ∧ (atPc 255 [0x01]).pc ≤ 255 ∧ M (atPc 255 [0x01]) 255 = 0x01#8 ∧
      after (stepWith nonSpeculative (atPc 255 [0x01])) (·.status) = some .halted ∧
      (atPc 253 [0x01]).pc + 2 ≤ 255 := by decide

/-- Register operands at both ends of the legal range and just above it, for every statement of an instruction's
rule. -/
theorem witness_register_operands : (0#8 : Byte).toNat ≤ 7 ∧ (7#8 : Byte).toNat ≤ 7 ∧ 7 < (8#8 : Byte).toNat := by decide

/-- Canonical memory, for the clauses of PUSH and CALL that read the stored byte, with `pc` at the last address a CALL
completes at, and one past it. -/
theorem witness_CallPushesTheReturnAddress :
    Memory.wf (atPc 253 [0x50, 1]).mem = true ∧ (atPc 253 [0x50, 1]).pc + 2 ≤ 255 ∧
      255 < (atPc 254 [0x50, 1]).pc + 2 := by decide

theorem witness_AluAfterTwoLoads : (7#8 : Byte).toNat ≤ 7 ∧ (0#8 : Byte) ≠ 7#8 ∧ (3#8 : Byte) = 3#8 := by decide

theorem witness_PopAfterPushRestores :
    Memory.wf State.reset.mem = true ∧ (7#8 : Byte).toNat = 7 ∧ (6#8 : Byte).toNat ≠ 7 ∧ (6#8 : Byte).toNat ≤ 7 := by
  decide

/-- The state after the CALL is itself a later state with the stack pointer and the cell that CALL left. -/
theorem witness_ReturnAfterCallResumes :
    Memory.wf (atPc 253 [0x50, 6]).mem = true ∧ (6#8 : Byte).toNat ≤ 6 ∧ (atPc 253 [0x50, 6]).pc ≤ 253 ∧
      after (exec (.call 6) (atPc 253 [0x50, 6])) (fun t => M t (x t 7).toNat) = some 255 := by decide

/-- PUSH r0 with SP = 3 at address 0 stores the byte 0x11, RETURN, at address 2 (V-S11). -/
theorem witness_PushedByteIsFetchedNext :
    let s := withReg .r0 0x11 (withReg .r7 3 (atPc 0 [0x45, 0, 1]))
    Memory.wf s.mem = true ∧ s.status = .running ∧ (0#8 : Byte).toNat ≤ 7 ∧ pushAddress s = s.pc + 2 ∧
      encode .ret = [if (0#8 : Byte).toNat = 7 then x s 7 - 1#8 else x s (0#8 : Byte).toNat] := by decide

theorem witness_LoadPlacesTheImage :
    Memory.wf State.reset.mem = true ∧ (List.replicate 256 (1#8 : Byte)).length ≤ 256 ∧
      256 < (List.replicate 257 (1#8 : Byte)).length :=
  ⟨rfl, by rw [List.length_replicate], by rw [List.length_replicate]; decide⟩

/-- A state other than reset that meets the invariant, and a step from it. -/
theorem witness_StepKeepsTheInvariant :
    (atPc 253 [0x82, 0, 7]).Inv ∧ after (stepWith nonSpeculative (atPc 253 [0x82, 0, 7])) (·.pc) = some 256 :=
  ⟨{ memory_wf := by decide, pc_le := by decide, fault_none_iff := by decide, fault_record := fun f h => by cases h },
    by decide⟩

theorem witness_EveryReachableStateMeetsTheInvariant : Reachable nonSpeculative (atPc 0 [0x01]) :=
  .boot (image := [0x01]) rfl

theorem witness_EndedRunsStayEnded :
    runWith nonSpeculative 1 (atPc 0 [0x01]) = .ended { atPc 0 [0x01] with status := .halted, pc := 1 } ∧
      runWith nonSpeculative 1 (atPc 0 [0x47, 0]) = .notEnded { atPc 0 [0x47, 0] with out := [0], pc := 2 } := by decide

theorem witness_HostReadsTheStop :
    (enterFault (.addressFault 256) (atPc 256 [])).status = .faulted ∧
      (enterFault (.addressFault 256) (atPc 255 [0x47])).pc = 255 ∧
      (enterFault (.addressFault 256) (atPc 254 [0x82])).pc = 254 ∧
      (enterFault (.illegalOpcode 2) (atPc 253 [0x02])).pc ≤ 253 ∧
      CleanStop (setStatus .halted State.reset) ∧ State.reset.status = .running :=
  ⟨by decide, by decide, by decide, by decide, rfl, by decide⟩

end Sys2Proof.Tests
end

section
/-! PROOFS. The step at an opcode (spec/40_engine.md): what the step is where the byte at `pc` is no opcode, where it
is one whose operand bytes have addresses, and where an operand byte has none; and which steps end HALTED. -/

namespace Sys2Proof.Machine

variable {s t : State} {c : Config} {i : Instr}

/-- An opcode and the bytes after it are the encoding of the instruction they make (R70 to R74). -/
theorem encode_instrOf {b0 : Byte} {op : Opcode} (h : opcodeOf? b0 = some op) (b1 b2 : Byte) :
    encode (instrOf op b1 b2) = b0 :: [b1, b2].take (operandCount (formatOf op)) := by
  rw [opcodeOf?_eq_some_iff] at h
  cases op <;> subst h <;> rfl

@[simp] theorem opcodeOfInstr_instrOf (op : Opcode) (b1 b2 : Byte) : opcodeOfInstr (instrOf op b1 b2) = op := by
  cases op <;> rfl

/-- A fetch that answers has read the opcode of the instruction at `pc` (R91, R92). -/
theorem opcodeOf?_of_fetch_ok (h : fetch c s = .ok i) :
    opcodeOf? (Memory.read s.mem s.pc) = some (opcodeOfInstr i) := by
  rcases fetch_cases c s with ⟨-, hf⟩ | ⟨-, -, -, hf⟩ | ⟨-, -, -, hf⟩ | ⟨_, -, -, -, -, hf⟩ | ⟨op, -, hop, -, hf⟩ <;>
    rw [h] at hf <;> cases hf
  rw [hop, opcodeOfInstr_instrOf]

theorem stepWith_illegal (hs : s.status = .running) (hpc : s.pc ≤ 255)
    (hc : c.speculativeOperandRead = true → s.pc + 2 ≤ 255) (h : opcodeOf? (Memory.read s.mem s.pc) = none) :
    stepWith c s = .next (enterFault (.illegalOpcode (Memory.read s.mem s.pc)) s) :=
  stepWith_of_fault hs (fetch_illegal hpc hc h)

theorem stepWith_instr {op : Opcode} (hs : s.status = .running)
    (hc : c.speculativeOperandRead = true → s.pc + 2 ≤ 255) (h : opcodeOf? (Memory.read s.mem s.pc) = some op)
    (hn : s.pc + operandCount (formatOf op) ≤ 255) :
    stepWith c s = exec (instrOf op (Memory.read s.mem (s.pc + 1)) (Memory.read s.mem (s.pc + 2))) s :=
  stepWith_of_fetch hs (fetch_instr hc h hn)

/-- An opcode at the top of memory raises AddressFault(256) when a byte it reads, its own operand or one read
speculatively, lies past 255 (R93). -/
theorem stepWith_past_end {op : Opcode} (hs : s.status = .running) (hpc : s.pc ≤ 255)
    (h : opcodeOf? (Memory.read s.mem s.pc) = some op)
    (hn : 255 < s.pc + operandCount (formatOf op) ∨ c.speculativeOperandRead = true ∧ 255 < s.pc + 2) :
    stepWith c s = .next (enterFault (.addressFault 256) s) := by
  apply stepWith_of_fault hs
  by_cases hc : c.speculativeOperandRead = true → s.pc + 2 ≤ 255
  · exact fetch_operands_past_end hpc hc h (hn.resolve_right fun ⟨hsp, h2⟩ => by have := hc hsp; omega)
  · obtain ⟨hsp, h2⟩ := Classical.not_imp.1 hc
    exact fetch_speculative_past_end hsp (by omega)

/-- An instruction other than HALT keeps the run state, unless it raises a fault. -/
theorem exec_status (h : exec i s = .next t) : i = .halt ∨ t.status = s.status ∨ t.status = .faulted := by
  rcases exec_cases i s with ⟨hi, -⟩ | ⟨_, _, -, he⟩ | ⟨_, -, he⟩ | ⟨_, _, -, he⟩ | ⟨_, _, -, he⟩ | ⟨_, -, he⟩ |
    ⟨_, -, he⟩ | ⟨_, -, -, he⟩ | ⟨-, he⟩ | ⟨_, -, he⟩ | ⟨_, -, -, he⟩
  · exact .inl hi
  all_goals
    right
    rw [he] at h
    cases h
  -- eight instructions that complete, then the two faults an instruction can raise
  iterate 8 exact .inl rfl
  all_goals exact .inr rfl

/-- Only HALT ends a step HALTED (R99). -/
theorem stepWith_halted (h : stepWith c s = .next t) (ht : t.status = .halted) : fetch c s = .ok .halt := by
  obtain ⟨hs, ⟨f, -, rfl⟩ | ⟨i, hf, he⟩⟩ := stepWith_next_cases h
  · cases ht
  · rcases exec_status he with rfl | hk | hk
    · exact hf
    · rw [ht, hs] at hk; cases hk
    · rw [ht] at hk; cases hk

end Sys2Proof.Machine

namespace Sys2Proof.Claims

open Sys2Proof.Machine

/-- The bytes from `pc` up, at most three of them, written out. -/
theorem map_range_M (s : State) {n : Nat} (h : n ≤ 2) :
    (List.range (n + 1)).map (fun k => M s (s.pc + k)) = M s s.pc :: [M s (s.pc + 1), M s (s.pc + 2)].take n := by
  interval_cases n <;> rfl

/-- Every opcode has the AddressFaults that its operand count gives it. -/
theorem addressFaults_of_opcode {b0 : Byte} {op : Opcode} (h : opcodeOf? b0 = some op) (c : Config) (s : State) :
    AddressFaults c s b0 (operandCount (formatOf op)) := by
  intro hs
  refine ⟨fun hpc => ?_, ?_, ?_⟩
  · have hf := fetch_past_end c (s := s) (by omega)
    rw [hpc] at hf
    exact stepWith_of_fault hs hf
  all_goals
    intro hpc hb hn
    rw [← hb, ← hpc] at h
    exact stepWith_past_end hs (by omega) h (hn.imp (by omega) (⟨·, by omega⟩))

/-- Settles O6: an unlisted byte is no opcode, so the fetch raises IllegalOpcode; a row of the table is an opcode with
its operand count, and that many bytes after it are what the fetch reads. -/
theorem opcodeSelectsTheInstruction : Obligations.OpcodeSelectsTheInstruction := by
  intro c s hs hpc hc
  refine ⟨fun h => stepWith_illegal hs hpc hc ((not_listed_iff _).1 h), fun n m hrow hn => ?_⟩
  obtain ⟨op, hop, rfl, rfl⟩ := (mem_opcodeTable_iff _ n m).1 hrow
  refine ⟨instrOf op (M s (s.pc + 1)) (M s (s.pc + 2)), ?_, stepWith_instr hs hc hop hn⟩
  rw [map_range_M s (operandCount_le_two _), encode_instrOf hop]

/-- Settles O18: HALT's opcode has no operand bytes, `stepWith` has no step in HALTED, and only a fetched HALT ends a
step HALTED. -/
theorem haltStopsTheEngine : Obligations.HaltStopsTheEngine := by
  intro c s
  have hop : opcodeOf? 0x01#8 = some .halt := rfl
  refine ⟨rfl, rfl, addressFaults_of_opcode hop c s, fun hs hpc hc hb => ?_, ?_, fun t h ht => ?_⟩
  · rw [← hb] at hop
    exact stepWith_instr hs hc hop hpc
  · rintro ⟨t, h⟩
    cases (stepWith_next_cases h).1
  · exact (opcodeOf?_eq_some_iff _ .halt).1 (opcodeOf?_of_fetch_ok (stepWith_halted h ht))

end Sys2Proof.Claims
end

section
/-! PROOFS. LOAD_IMMEDIATE (spec/41_register_output.md R110): what it writes, what it leaves unchanged, and its
faults. -/

namespace Sys2Proof.Claims

open Sys2Proof.Machine

/-- A step that writes one register and moves on leaves the other registers as they were. -/
theorem registersSameBut_setPc_writeReg (s : State) (r : Reg) (v : Byte) (t : Nat) :
    RegistersSameBut [(byteOfReg r).toNat] s (setPc t (writeReg r v s)) :=
  registersSameBut_of (written := [r]) fun q hq => by
    rw [readReg_setPc, readReg_writeReg, if_neg (List.ne_of_not_mem_cons hq)]

/-- Settles O19: an operand byte up to 7 names a register, so the check passes and `x[ra]` alone is written; above 7
the check raises; the opcode has two operand bytes. -/
theorem loadImmediateWritesTheRegister : Obligations.LoadImmediateWritesTheRegister := by
  intro c s
  refine ⟨fun _ _ => rfl, fun ra imm hra => ?_, fun ra imm hra => execLoadImmediate_bad hra imm s,
    addressFaults_of_opcode (op := .loadImmediate) rfl c s⟩
  obtain ⟨r, rfl⟩ := exists_reg_of_toNat_le hra
  refine ⟨_, execLoadImmediate_eq r imm s, ?_, registersSameBut_setPc_writeReg s r imm _, fun _ => rfl, rfl,
    ⟨rfl, rfl⟩, rfl⟩
  rw [x_byteOfReg, readReg_setPc, readReg_writeReg_self]

end Sys2Proof.Claims
end

section
/-! PROOFS. The ALU's two instructions ADD and MULTIPLY (spec/42_alu.md R123, R124): one argument over the ALU
operation says what both write and leave unchanged. -/

namespace Sys2Proof.Claims

open Sys2Proof.Machine

/-- The ALU leaves the exact result modulo 256 in the destination (R121), computed from both old registers, the
source being the destination or not. -/
theorem x_setPc_aluApply (op : AluOp) (d r : Reg) (s : State) (t : Nat) :
    (x (setPc t (aluApply op d r s)) (byteOfReg d).toNat).toNat =
      aluExact op (x s (byteOfReg d).toNat).toNat (x s (byteOfReg r).toNat).toNat % 256 := by
  simp only [x_byteOfReg, readReg_setPc, aluApply, readReg_writeReg_self, trunc8_toNat]

/-- The state an ALU instruction leaves: `x[ra]` holds the exact result modulo 256, `pc` is `pc + 3`, and nothing else
changes. -/
theorem aluInstruction_effect {s t : State} (op : AluOp) (d r : Reg) (ht : t = setPc (s.pc + 3) (aluApply op d r s)) :
    (x t (byteOfReg d).toNat).toNat =
        aluExact op (x s (byteOfReg d).toNat).toNat (x s (byteOfReg r).toNat).toNat % 256 ∧
      RegistersSameBut [(byteOfReg d).toNat] s t ∧ MemorySame s t ∧ t.out = s.out ∧ RunStateSame s t ∧
      t.pc = s.pc + 3 := by
  subst ht
  exact ⟨x_setPc_aluApply op d r s _, registersSameBut_setPc_writeReg s d _ _, fun _ => rfl, rfl, ⟨rfl, rfl⟩, rfl⟩

/-- Settles O21: operand bytes up to 7 name registers and the ALU adds them; the check of the first operand stands
before that of the second; the opcode has two operand bytes. -/
theorem addAddsModulo256 : Obligations.AddAddsModulo256 := by
  intro c s
  refine ⟨fun _ _ => rfl, fun ra rb hra hrb => ?_, fun ra rb hra => execAdd_bad_first hra rb s, fun ra rb hra hrb => ?_,
    addressFaults_of_opcode (op := .add) rfl c s⟩
  · obtain ⟨d, rfl⟩ := exists_reg_of_toNat_le hra
    obtain ⟨r, rfl⟩ := exists_reg_of_toNat_le hrb
    exact ⟨_, execAdd_eq d r s, aluInstruction_effect .add d r rfl⟩
  · obtain ⟨d, rfl⟩ := exists_reg_of_toNat_le hra
    exact execAdd_bad_second d hrb s

/-- Settles O22: operand bytes up to 7 name registers and the ALU multiplies them; the check of the first operand
stands before that of the second; the opcode has two operand bytes. -/
theorem multiplyMultipliesModulo256 : Obligations.MultiplyMultipliesModulo256 := by
  intro c s
  refine ⟨fun _ _ => rfl, fun ra rb hra hrb => ?_, fun ra rb hra => execMultiply_bad_first hra rb s,
    fun ra rb hra hrb => ?_, addressFaults_of_opcode (op := .multiply) rfl c s⟩
  · obtain ⟨d, rfl⟩ := exists_reg_of_toNat_le hra
    obtain ⟨r, rfl⟩ := exists_reg_of_toNat_le hrb
    exact ⟨_, execMultiply_eq d r s, aluInstruction_effect .multiply d r rfl⟩
  · obtain ⟨d, rfl⟩ := exists_reg_of_toNat_le hra
    exact execMultiply_bad_second d hrb s

end Sys2Proof.Claims
end

section
/-! PROOFS. PUSH and POP (spec/43_stack.md R141, R142).  What moving the stack pointer does to the registers is said
once; the state a push leaves is described for any pushed byte and any new `pc`, as PUSH and CALL share it. -/

namespace Sys2Proof.Machine

variable (s : State)

@[simp] theorem readReg_r7_decSp : readReg .r7 (decSp s) = readReg .r7 s - 1#8 := readReg_writeReg_self s .r7 _

@[simp] theorem readReg_r7_incSp : readReg .r7 (incSp s) = readReg .r7 s + 1#8 := readReg_writeReg_self s .r7 _

theorem readReg_decSp_of_ne {q : Reg} (h : q ≠ .r7) : readReg q (decSp s) = readReg q s := by
  rw [decSp, readReg_writeReg, if_neg h]

theorem readReg_incSp_of_ne {q : Reg} (h : q ≠ .r7) : readReg q (incSp s) = readReg q s := by
  rw [incSp, readReg_writeReg, if_neg h]

end Sys2Proof.Machine

namespace Sys2Proof.Claims

open Sys2Proof.Machine

/-- One less, modulo 256. -/
theorem toNat_sub_one (b : Byte) : (b - 1#8).toNat = (b.toNat + 255) % 256 := by
  rw [BitVec.toNat_sub, Nat.add_comm]; rfl

/-- The state a push of the byte `v` leaves (R52, R61): the stack pointer is one less modulo 256, `v` stands in the
cell it points to, and no other register, no other cell, not the output, run state or fault record changes. -/
theorem push_effect {s t : State} (v : Byte) (p : Nat)
    (ht : t = { decSp s with mem := Memory.write s.mem (pushAddress s) v, pc := p }) :
    (x t 7).toNat = ((x s 7).toNat + 255) % 256 ∧ RegistersSameBut [7] s t ∧ pushAddress s = (x t 7).toNat ∧
      (Memory.wf s.mem = true → M t (pushAddress s) = v) ∧ (∀ a, pushAddress s = a → MemorySameBut a s t) ∧
      t.out = s.out ∧ RunStateSame s t ∧ t.pc = p := by
  have hsp : x t 7 = x s 7 - 1#8 := ht ▸ readReg_r7_decSp s
  subst ht
  refine ⟨hsp ▸ toNat_sub_one _, ?_, rfl, fun hwf => ?_, ?_, rfl, ⟨rfl, rfl⟩, rfl⟩
  · exact registersSameBut_of (written := [.r7]) fun q hq => readReg_decSp_of_ne s (List.ne_of_not_mem_cons hq)
  · exact Memory.read_write_self_from hwf _ v
  · rintro a rfl b hb
    exact Memory.read_write_of_ne s.mem v hb

/-- Settles O23: an operand byte up to 7 names a register, and the byte pushed is that register after the decrement,
which is what it holds in the end; above 7 the check raises; the opcode has one operand byte. -/
theorem pushStoresBelowTheStackPointer : Obligations.PushStoresBelowTheStackPointer := by
  intro c s
  refine ⟨fun _ => rfl, fun ra hra => ?_, fun ra hra => execPush_bad hra s,
    addressFaults_of_opcode (op := .push) rfl c s⟩
  obtain ⟨r, rfl⟩ := exists_reg_of_toNat_le hra
  refine ⟨_, execPush_eq r s, ?_⟩
  rw [x_byteOfReg]
  exact push_effect (readReg r (decSp s)) (s.pc + 2) rfl

/-- POP changes no register but the one it names and the stack pointer. -/
theorem registersSameBut_pop (s : State) (r : Reg) (v : Byte) (p : Nat) :
    RegistersSameBut [(byteOfReg r).toNat, 7] s (setPc p (incSp (writeReg r v s))) :=
  registersSameBut_of (written := [r, .r7]) fun q hq => by
    obtain ⟨hr, h7⟩ : q ≠ r ∧ q ≠ .r7 := by simpa using hq
    rw [readReg_setPc, readReg_incSp_of_ne _ h7, readReg_writeReg, if_neg hr]

/-- Settles O24: an operand byte up to 7 names a register; the increment comes after the write of that register, so it
leaves it alone or, for r7, adds one to the byte just written; above 7 the check raises; the opcode has one operand
byte. -/
theorem popLoadsFromTheStackPointer : Obligations.PopLoadsFromTheStackPointer := by
  intro c s
  refine ⟨fun _ => rfl, fun ra hra => ?_, fun ra hra => execPop_bad hra s,
    addressFaults_of_opcode (op := .pop) rfl c s⟩
  obtain ⟨r, rfl⟩ := exists_reg_of_toNat_le hra
  refine ⟨_, execPop_eq r s, fun hr => ?_, fun hr => ?_, registersSameBut_pop s r _ _, fun _ => rfl, rfl, ⟨rfl, rfl⟩,
    rfl⟩
  · have hr7 : r ≠ .r7 := by rintro rfl; exact hr rfl
    constructor
    · rw [x_byteOfReg, readReg_setPc, readReg_incSp_of_ne _ hr7, readReg_writeReg_self, spAddress_eq_x, M_eq]
    · rw [x_seven, x_seven, readReg_setPc, readReg_r7_incSp, readReg_writeReg, if_neg hr7.symm]
      exact BitVec.toNat_add _ 1#8
  · obtain rfl : r = .r7 := byteOfReg_injective hr
    rw [x_seven, readReg_setPc, readReg_r7_incSp, readReg_writeReg_self]
    exact BitVec.toNat_add _ 1#8

end Sys2Proof.Claims
end

section
/-! PROOFS. RETURN (spec/44_call_return.md R151): the jump to the byte on the stack, the one register it writes, and
its faults. -/

namespace Sys2Proof.Claims

open Sys2Proof.Machine

/-- Settles O26: the stack pointer always holds an address, so the read is never out of range and RETURN completes;
what it writes beside `pc` is the stack pointer alone; the opcode has no operand bytes. -/
theorem returnPopsTheProgramCounter : Obligations.ReturnPopsTheProgramCounter := by
  intro c s
  refine ⟨rfl, ⟨_, execRet_eq s, ?_, ?_, registersSameBut_setPc_writeReg s .r7 _ _, fun _ => rfl, rfl, ⟨rfl, rfl⟩⟩,
    addressFaults_of_opcode (op := .ret) rfl c s⟩
  · rw [setPc_pc, spAddress_eq_x, M_eq]
  · rw [x_seven, x_seven, readReg_setPc, readReg_r7_incSp]
    exact BitVec.toNat_add _ 1#8

end Sys2Proof.Claims
end

section
/-! PROOFS. Decode against encode (spec/30_encoding.md).  An opcode's operand decoder is described once, by how many
bytes it is given: enough of them make the opcode's instruction and leave the rest, too few name the first that is
missing. -/

namespace Sys2Proof.Machine

/-- A list with at least `n` bytes, two at most, is `n` operand bytes and a rest. -/
theorem exists_take_append {n : Nat} {bytes : List Byte} (hn : n ≤ 2) (h : n ≤ bytes.length) :
    ∃ b1 b2 rest, bytes = [b1, b2].take n ++ rest := by
  interval_cases n
  · exact ⟨0, 0, bytes, rfl⟩
  · obtain ⟨b1, rest, rfl⟩ := List.exists_cons_of_length_pos h
    exact ⟨b1, 0, rest, rfl⟩
  · match bytes, h with
    | b1 :: b2 :: rest, _ => exact ⟨b1, b2, rest, rfl⟩

/-- An opcode's operand bytes make its instruction, whatever follows them (R70, R78). -/
theorem decodeOperands_append (op : Opcode) (b1 b2 : Byte) (rest : List Byte) :
    decodeOperands op ([b1, b2].take (operandCount (formatOf op)) ++ rest) = .ok (instrOf op b1 b2, rest) := by
  cases op <;> rfl

/-- Too few operand bytes for an opcode: the first missing one is named. -/
theorem decodeOperands_short {op : Opcode} {bytes : List Byte} (h : bytes.length < operandCount (formatOf op)) :
    decodeOperands op bytes = .error (.missingOperand (bytes.length + 1)) := by
  cases op with
  | halt | ret => exact absurd h (Nat.not_lt_zero _)
  | printRegister | push | pop | call =>
    obtain rfl : bytes = [] := List.length_eq_zero_iff.1 (Nat.lt_one_iff.1 h)
    rfl
  | loadImmediate | multiply | add =>
    match bytes, h with
    | [], _ => rfl
    | [_], _ => rfl

/-- Everything an operand decoder can answer. -/
theorem decodeOperands_cases (op : Opcode) (bytes : List Byte) :
    (∃ b1 b2 rest, bytes = [b1, b2].take (operandCount (formatOf op)) ++ rest ∧
      decodeOperands op bytes = .ok (instrOf op b1 b2, rest)) ∨
    decodeOperands op bytes = .error (.missingOperand (bytes.length + 1)) := by
  by_cases h : operandCount (formatOf op) ≤ bytes.length
  · obtain ⟨b1, b2, rest, rfl⟩ := exists_take_append (operandCount_le_two _) h
    exact .inl ⟨b1, b2, rest, rfl, decodeOperands_append op b1 b2 rest⟩
  · exact .inr (decodeOperands_short (Nat.lt_of_not_le h))

/-- Every instruction is encoded as its opcode's byte and the operand bytes of its format (R71, R72). -/
theorem encodedForm (i : Instr) : Laws.EncodedForm.Statement i := by
  cases i with
  | halt => exact Laws.EncodedForm.halt
  | loadImmediate ra imm => exact Laws.EncodedForm.loadImmediate ra imm
  | printRegister ra => exact Laws.EncodedForm.printRegister ra
  | multiply ra rb => exact Laws.EncodedForm.multiply ra rb
  | add ra rb => exact Laws.EncodedForm.add ra rb
  | push ra => exact Laws.EncodedForm.push ra
  | pop ra => exact Laws.EncodedForm.pop ra
  | call ra => exact Laws.EncodedForm.call ra
  | ret => exact Laws.EncodedForm.ret

theorem decode_encode_append (i : Instr) (rest : List Byte) : decode (encode i ++ rest) = .ok (i, rest) := by
  cases i <;> rfl

theorem encode_append_of_decode {bytes rest : List Byte} {i : Instr} (h : decode bytes = .ok (i, rest)) :
    bytes = encode i ++ rest := by
  cases bytes with
  | nil => cases h
  | cons b0 operands =>
    cases hop : opcodeOf? b0 with
    | none => rw [decode_cons_of_none hop] at h; cases h
    | some op =>
      rw [decode_cons_of_some hop] at h
      rcases decodeOperands_cases op operands with ⟨b1, b2, rest', rfl, hd⟩ | hd <;> rw [hd] at h <;> cases h
      rw [encode_instrOf hop, List.cons_append]

end Sys2Proof.Machine

namespace Sys2Proof.Claims

open Sys2Proof.Machine

/-- Settles O1: an encoding decodes to its instruction, and bytes that decode are an opcode with that opcode's operand
bytes in front, which is how the instruction they make is encoded. -/
theorem decodeAndEncodeAgree : Obligations.DecodeAndEncodeAgree := by
  intro bytes rest i
  refine ⟨encode_append_of_decode, ?_⟩
  rintro rfl
  exact decode_encode_append i rest

/-- Settles O2: after an opcode the operand decoder answers an instruction or a missing operand, never an illegal
opcode. -/
theorem unlistedOpcodesAreRejected : Obligations.UnlistedOpcodesAreRejected := by
  intro b0 rest
  rw [not_listed_iff]
  refine ⟨fun h => ?_, fun h => decode_cons_of_none h rest⟩
  cases hop : opcodeOf? b0 with
  | none => rfl
  | some op =>
    rw [decode_cons_of_some hop] at h
    rcases decodeOperands_cases op rest with ⟨_, _, _, -, hd⟩ | hd <;> rw [hd] at h <;> cases h

/-- Settles O3: without its opcode byte an instruction is no bytes at all; with it, fewer operand bytes than its format
has are too few for the operand decoder. -/
theorem truncatedInstructionsAreRejected : Obligations.TruncatedInstructionsAreRejected := by
  intro i k hk
  obtain ⟨b0, operands, he, hop, hlen⟩ := encodedForm i
  rw [he] at hk ⊢
  cases k with
  | zero => rfl
  | succ k =>
    have hlt : k < operands.length := Nat.lt_of_succ_lt_succ hk
    have hk' : (operands.take k).length = k := List.length_take_of_le hlt.le
    rw [List.take_succ_cons, decode_cons_of_some hop, decodeOperands_short (by omega), hk', if_neg k.succ_ne_zero]

/-- Settles O4: each word is a closed list of bytes, and the decoder evaluates it. -/
theorem writtenWordsDecode : Obligations.WrittenWordsDecode :=
  ⟨rfl, rfl, rfl, rfl, rfl, rfl, rfl, rfl, rfl⟩

end Sys2Proof.Claims
end

section
/-! PROOFS. The fetch and the checks of a step (spec/40_engine.md R90 to R97): the fetch answers an instruction exactly
where its encoding stands at `pc`, so a step runs the instruction that stands there; the order of the faults; and how
little the setting of SPECULATIVE_OPERAND_READ matters. -/

namespace Sys2Proof.Machine

theorem encode_injective {i j : Instr} (h : encode i = encode j) : i = j := by
  have hd := decode_encode_append i []
  rw [h, decode_encode_append] at hd
  cases hd
  rfl

end Sys2Proof.Machine

namespace Sys2Proof.Claims

open Sys2Proof.Machine

variable {c : Config} {s : State} {i : Instr}

/-- The bytes read from `pc` up stand at `pc`, if the last of them has an address. -/
theorem standsAtPc_map_range {n : Nat} (h : s.pc + n ≤ 255) :
    StandsAtPc ((List.range (n + 1)).map fun k => M s (s.pc + k)) s := by
  intro k b hk
  obtain ⟨j, hj, rfl⟩ := Option.map_eq_some_iff.1 (List.getElem?_map .. ▸ hk)
  obtain ⟨hlt, rfl⟩ := List.getElem?_eq_some_iff.1 hj
  rw [List.length_range] at hlt
  rw [List.getElem_range]
  exact ⟨by omega, rfl⟩

/-- Bytes that stand at `pc` are the bytes read from `pc` up. -/
theorem StandsAtPc.eq_map_range {bytes : List Byte} (h : StandsAtPc bytes s) :
    bytes = (List.range bytes.length).map fun k => M s (s.pc + k) := by
  refine List.ext_getElem (by simp) fun k hk _ => ?_
  rw [List.getElem_map, List.getElem_range]
  exact (h k _ (List.getElem?_eq_getElem hk)).2.symm

/-- A fetch that answers has read the encoding of the instruction, every byte of it at an address (R91, R93). -/
theorem standsAtPc_of_fetch_ok (h : fetch c s = .ok i) : StandsAtPc (encode i) s := by
  rcases fetch_cases c s with ⟨-, hf⟩ | ⟨-, -, -, hf⟩ | ⟨-, -, -, hf⟩ | ⟨_, -, -, -, -, hf⟩ | ⟨op, -, hop, hn, hf⟩ <;>
    rw [h] at hf <;> cases hf
  rw [encode_instrOf hop]
  exact map_range_M s (operandCount_le_two _) ▸ standsAtPc_map_range hn

/-- Where the encoding of an instruction stands at `pc`, the fetch answers that instruction, provided that the bytes
read speculatively have addresses too. -/
theorem fetch_of_standsAtPc (hc : c.speculativeOperandRead = true → s.pc + 2 ≤ 255) (h : StandsAtPc (encode i) s) :
    fetch c s = .ok i := by
  obtain ⟨b0, operands, he, hop, hlen⟩ := encodedForm i
  have hrange := h.eq_map_range
  rw [he] at h
  obtain ⟨-, rfl⟩ := h 0 b0 rfl
  obtain ⟨hn, -⟩ := h operands.length _ (List.getElem?_eq_getElem (Nat.lt_succ_self _))
  rw [fetch_instr hc hop (hlen ▸ hn)]
  congr 1
  refine encode_injective ?_
  rw [hrange, he, encode_instrOf hop, List.length_cons, hlen]
  exact (map_range_M s (operandCount_le_two _)).symm

theorem stepWith_of_standsAtPc (hs : s.status = .running) (hc : c.speculativeOperandRead = true → s.pc + 2 ≤ 255)
    (h : StandsAtPc (encode i) s) : stepWith c s = exec i s :=
  stepWith_of_fetch hs (fetch_of_standsAtPc hc h)

/-- At the default setting nothing is read speculatively. -/
theorem step_of_standsAtPc (hs : s.status = .running) (h : StandsAtPc (encode i) s) : step s = exec i s :=
  stepWith_of_standsAtPc hs nofun h

/-- Settles O5: bytes that decode to `i` with nothing left are the encoding of `i`. -/
theorem stepRunsTheDecodedInstruction : Obligations.StepRunsTheDecodedInstruction := by
  intro c s bytes i hs hat hd
  obtain rfl : bytes = encode i := by rw [encode_append_of_decode hd, List.append_nil]
  exact ⟨fun hc => stepWith_of_standsAtPc hs hc hat, step_of_standsAtPc hs hat⟩

end Sys2Proof.Claims

namespace Sys2Proof.Machine

variable {c : Config} {s : State}

/-- A RUNNING engine takes a step (R97): a fault of the fetch is a next state, and so is what an instruction does. -/
theorem exists_stepWith_next (hs : s.status = .running) (c : Config) : ∃ t, stepWith c s = .next t := by
  cases hf : fetch c s with
  | error f => exact ⟨_, stepWith_of_fault hs hf⟩
  | ok i => exact stepWith_of_fetch hs hf ▸ exec_next i s

/-- An engine that is not RUNNING takes no step, and whether it is HALTED or FAULTED alone says how it stops (R90). -/
theorem exists_stepWith_fault {s' : State} (hs : s.status ≠ .running) (h : s'.status = s.status) (c c' : Config) :
    ∃ f, stepWith c s = .fault f ∧ stepWith c' s' = .fault f := by
  cases hst : s.status with
  | running => exact absurd hst hs
  | halted => exact ⟨.engineHalted, by rw [stepWith, hst], by rw [stepWith, h, hst]⟩
  | faulted => exact ⟨.engineFaulted, by rw [stepWith, hst], by rw [stepWith, h, hst]⟩

/-- A register operand above 7 in the first operand byte raises RegisterIndexFault with it (R94). -/
theorem exec_instrOf_bad_first {op : Opcode} {b1 : Byte} (hm : 1 ≤ Claims.registerOperands (formatOf op))
    (h : 7 < b1.toNat) (b2 : Byte) (s : State) :
    exec (instrOf op b1 b2) s = .next (enterFault (.registerIndexFault b1) s) := by
  cases op with
  | halt | ret => exact absurd hm (by decide)
  | loadImmediate => exact execLoadImmediate_bad h b2 s
  | printRegister => exact execPrintRegister_bad h s
  | multiply => exact execMultiply_bad_first h b2 s
  | add => exact execAdd_bad_first h b2 s
  | push => exact execPush_bad h s
  | pop => exact execPop_bad h s
  | call => exact execCall_bad h s

/-- The second operand byte is checked after the first, in the opcodes with two register operands (R94). -/
theorem exec_instrOf_bad_second {op : Opcode} {b1 b2 : Byte} (hm : Claims.registerOperands (formatOf op) = 2)
    (h1 : b1.toNat ≤ 7) (h : 7 < b2.toNat) (s : State) :
    exec (instrOf op b1 b2) s = .next (enterFault (.registerIndexFault b2) s) := by
  obtain ⟨r, rfl⟩ := exists_reg_of_toNat_le h1
  cases op with
  | multiply => exact execMultiply_bad_second r h s
  | add => exact execAdd_bad_second r h s
  | halt | ret | loadImmediate | printRegister | push | pop | call => exact absurd hm (by decide)

/-- The setting does not matter where the two bytes after the opcode have addresses. -/
theorem fetch_eq_fetch (h : s.pc + 2 ≤ 255) (c c' : Config) : fetch c s = fetch c' s := by
  rw [fetch_eq (by omega) fun _ => h, fetch_eq (by omega) fun _ => h]

theorem stepWith_eq_of_fetch_eq {c c' : Config} (h : fetch c s = fetch c' s) : stepWith c s = stepWith c' s := by
  rw [stepWith, stepWith, h]

end Sys2Proof.Machine

namespace Sys2Proof.Claims

open Sys2Proof.Machine

/-- Settles O7: fault entry and every instruction answer a next state, and an engine that is not RUNNING stops. -/
theorem engineStepsExactlyWhileRunning : Obligations.EngineStepsExactlyWhileRunning := by
  refine fun c s => ⟨fun hs => exists_stepWith_next hs c, ?_⟩
  rintro hs ⟨t, h⟩
  obtain ⟨hrun, -⟩ := stepWith_next_cases h
  rw [hrun] at hs
  exact hs.elim nofun nofun

/-- Settles O8: the fetch makes the checks up to the operand bytes in this order, the instruction the two register
checks, and CALL the check of its return address after them. -/
theorem faultsAreRaisedInTheGivenOrder : Obligations.FaultsAreRaisedInTheGivenOrder := by
  intro c s hs
  refine ⟨fun hpc => stepWith_of_fault hs (fetch_past_end c hpc),
    fun hc hpc => stepWith_of_fault hs (fetch_speculative_past_end hc hpc), fun hpc hc => ?_⟩
  have hc2 : c.speculativeOperandRead = true → s.pc + 2 ≤ 255 := fun h => by have := hc h; omega
  refine ⟨fun h => stepWith_illegal hs hpc hc2 ((not_listed_iff _).1 h), fun n m hrow => ?_⟩
  obtain ⟨op, hop, rfl, rfl⟩ := (mem_opcodeTable_iff _ n m).1 hrow
  refine ⟨fun hn => stepWith_past_end hs hpc hop (.inl hn), fun hn => ?_⟩
  rw [stepWith_instr hs hc2 hop hn]
  refine ⟨fun hm h1 => exec_instrOf_bad_first hm h1 _ s, fun hm h1 h2 => exec_instrOf_bad_second hm h1 h2 s,
    fun hcall hat h1 => ?_⟩
  obtain rfl : op = .call := Option.some.inj (hop.symm.trans ((opcodeOf?_eq_some_iff _ .call).2 hcall))
  obtain ⟨r, hr⟩ := exists_reg_of_toNat_le h1
  have hoperand : Memory.read s.mem (s.pc + 1) = byteOfReg r := by rw [hat]; exact hr
  rw [hoperand]
  have hraise := execCall_no_return_address r (s := s) (by omega)
  rw [hat] at hraise
  exact hraise

/-- Settles O9: below 254 both bytes after the opcode have addresses, above 255 the opcode has none; at 254 and 255 the
speculative read is what faults, if the engine runs at all. -/
theorem settingsDifferOnlyAtTheTopOfMemory : Obligations.SettingsDifferOnlyAtTheTopOfMemory := by
  intro s
  have hsame : s.pc ≠ 254 → s.pc ≠ 255 → stepWith speculative s = stepWith nonSpeculative s := fun h4 h5 => by
    apply stepWith_eq_of_fetch_eq
    by_cases hpc : 255 < s.pc
    · rw [fetch_past_end _ hpc, fetch_past_end _ hpc]
    · exact fetch_eq_fetch (by omega) _ _
  refine ⟨hsame, ?_⟩
  by_cases hs : s.status = .running
  · by_cases hpc : s.pc = 254 ∨ s.pc = 255
    · exact .inr (stepWith_of_fault hs (fetch_speculative_past_end rfl hpc))
    · obtain ⟨h4, h5⟩ := not_or.1 hpc
      exact .inl (hsame h4 h5)
  · obtain ⟨f, h, h'⟩ := exists_stepWith_fault hs rfl speculative nonSpeculative
    exact .inl (h.trans h'.symm)

end Sys2Proof.Claims
end

section
/-! PROOFS. What one instruction can do, as a relation: it completes, in one way per instruction; or it is ill formed
and raises RegisterIndexFault; or it is a CALL whose return address does not fit.  The claims over every step are case
splits over `Completes`, at the instruction whose encoding stands at `pc`. -/

namespace Sys2Proof.Machine

open Sys2Proof.Claims

/-- The state a push of the byte `v` leaves where the next instruction is at `p` (R141, R150). -/
def pushed (v : Byte) (p : Nat) (s : State) : State :=
  { decSp s with mem := Memory.write s.mem (pushAddress s) v, pc := p }

@[simp] theorem pushed_pc (v : Byte) (p : Nat) (s : State) : (pushed v p s).pc = p := rfl

@[simp] theorem readReg_pushed (r : Reg) (v : Byte) (p : Nat) (s : State) :
    readReg r (pushed v p s) = readReg r (decSp s) := rfl

/-- The instruction completes from `s` in the last argument: the effect of each rule, R99 to R151.  `Completes.exec` and
`exec_cases_of_wf` tie it to `exec`. -/
inductive Completes (s : State) : Instr → State → Prop
  | halt : Completes s .halt (setPc (s.pc + 1) (setStatus .halted s))
  | loadImmediate (r : Reg) (imm : Byte) :
      Completes s (.loadImmediate (byteOfReg r) imm) (setPc (s.pc + 3) (writeReg r imm s))
  | printRegister (r : Reg) :
      Completes s (.printRegister (byteOfReg r)) (setPc (s.pc + 2) (emit (readReg r s) s))
  | multiply (d r : Reg) :
      Completes s (.multiply (byteOfReg d) (byteOfReg r)) (setPc (s.pc + 3) (aluApply .multiply d r s))
  | add (d r : Reg) :
      Completes s (.add (byteOfReg d) (byteOfReg r)) (setPc (s.pc + 3) (aluApply .add d r s))
  | push (r : Reg) : Completes s (.push (byteOfReg r)) (pushed (readReg r (decSp s)) (s.pc + 2) s)
  | pop (r : Reg) :
      Completes s (.pop (byteOfReg r))
        (setPc (s.pc + 2) (incSp (writeReg r (Memory.read s.mem (spAddress s)) s)))
  | call (r : Reg) (h : s.pc + 2 ≤ 255) :
      Completes s (.call (byteOfReg r)) (pushed (trunc8 (s.pc + 2)) (readReg r (decSp s)).toNat s)
  | ret : Completes s .ret (setPc (Memory.read s.mem (spAddress s)).toNat (incSp s))

variable {c : Config} {s t : State} {i : Instr}

theorem Completes.exec (h : Completes s i t) : exec i s = .next t := by
  cases h with
  | halt => exact execHalt_eq s
  | loadImmediate r imm => exact execLoadImmediate_eq r imm s
  | printRegister r => exact execPrintRegister_eq r s
  | multiply d r => exact execMultiply_eq d r s
  | add d r => exact execAdd_eq d r s
  | push r => exact execPush_eq r s
  | pop r => exact execPop_eq r s
  | call r h => exact execCall_eq r h
  | ret => exact execRet_eq s

theorem exists_reg_of_isRegisterIndex {b : Byte} (h : isRegisterIndex b = true) : ∃ r, b = byteOfReg r :=
  exists_reg_of_toNat_le (Nat.le_of_lt_succ (of_decide_eq_true h))

/-- A well-formed instruction completes, unless it is a CALL without a return address (R164). -/
theorem exec_cases_of_wf (h : i.wf = true) (s : State) :
    (∃ t, Completes s i t) ∨ ∃ r, i = .call (byteOfReg r) ∧ 255 < s.pc + 2 := by
  cases i with
  | halt => exact .inl ⟨_, .halt⟩
  | ret => exact .inl ⟨_, .ret⟩
  | loadImmediate ra imm =>
    obtain ⟨r, rfl⟩ := exists_reg_of_isRegisterIndex h
    exact .inl ⟨_, .loadImmediate r imm⟩
  | printRegister ra =>
    obtain ⟨r, rfl⟩ := exists_reg_of_isRegisterIndex h
    exact .inl ⟨_, .printRegister r⟩
  | multiply ra rb =>
    obtain ⟨ha, hb⟩ := (Bool.and_eq_true _ _).mp h
    obtain ⟨d, rfl⟩ := exists_reg_of_isRegisterIndex ha
    obtain ⟨r, rfl⟩ := exists_reg_of_isRegisterIndex hb
    exact .inl ⟨_, .multiply d r⟩
  | add ra rb =>
    obtain ⟨ha, hb⟩ := (Bool.and_eq_true _ _).mp h
    obtain ⟨d, rfl⟩ := exists_reg_of_isRegisterIndex ha
    obtain ⟨r, rfl⟩ := exists_reg_of_isRegisterIndex hb
    exact .inl ⟨_, .add d r⟩
  | push ra =>
    obtain ⟨r, rfl⟩ := exists_reg_of_isRegisterIndex h
    exact .inl ⟨_, .push r⟩
  | pop ra =>
    obtain ⟨r, rfl⟩ := exists_reg_of_isRegisterIndex h
    exact .inl ⟨_, .pop r⟩
  | call ra =>
    obtain ⟨r, rfl⟩ := exists_reg_of_isRegisterIndex h
    by_cases hpc : s.pc + 2 ≤ 255
    · exact .inl ⟨_, .call r hpc⟩
    · exact .inr ⟨r, rfl, Nat.lt_of_not_le hpc⟩

theorem exists_instrOf (i : Instr) : ∃ op b1 b2, i = instrOf op b1 b2 := by
  obtain ⟨b0, operands, he, hop, hlen⟩ := encodedForm i
  obtain ⟨b1, b2, rest, rfl⟩ := exists_take_append (operandCount_le_two _) hlen.ge
  have hd := decode_encode_append i []
  rw [List.append_nil, he, decode_cons_of_some hop, decodeOperands_append] at hd
  injection hd with hd
  exact ⟨_, b1, b2, (congrArg Prod.fst hd).symm⟩

theorem lt_of_not_isRegisterIndex {b : Byte} (h : isRegisterIndex b = false) : 7 < b.toNat :=
  Nat.lt_of_succ_le (Nat.le_of_not_lt (of_decide_eq_false h))

/-- What is wrong with an ill-formed instruction: its first register operand, or a second one. -/
theorem bad_operand_of_not_wf {op : Opcode} {b1 b2 : Byte} (h : (instrOf op b1 b2).wf = false) :
    (1 ≤ registerOperands (formatOf op) ∧ 7 < b1.toNat) ∨
    (registerOperands (formatOf op) = 2 ∧ b1.toNat ≤ 7 ∧ 7 < b2.toNat) := by
  cases op with
  | halt | ret => cases h
  | loadImmediate | printRegister | push | pop | call => exact .inl ⟨le_rfl, lt_of_not_isRegisterIndex h⟩
  | multiply | add =>
    rcases Nat.lt_or_ge 7 b1.toNat with h1 | h1
    · exact .inl ⟨Nat.le_succ 1, h1⟩
    · have hb1 : isRegisterIndex b1 = true := decide_eq_true (Nat.lt_succ_of_le h1)
      exact .inr ⟨rfl, h1, lt_of_not_isRegisterIndex ((Bool.and_eq_false_imp.1 h) hb1)⟩

theorem registerOperands_le_operandCount (f : Format) : registerOperands f ≤ operandCount f := by
  cases f <;> decide

theorem operands_instrOf (op : Opcode) (b1 b2 : Byte) :
    (encode (instrOf op b1 b2)).drop 1 = [b1, b2].take (operandCount (formatOf op)) := by
  cases op <;> rfl

/-- An ill-formed instruction raises RegisterIndexFault with an operand byte of its own (R94, R163), from every
state. -/
theorem exec_of_not_wf (h : i.wf = false) :
    ∃ b : Byte, 7 < b.toNat ∧ b ∈ (encode i).drop 1 ∧
      ∀ s, exec i s = .next (enterFault (.registerIndexFault b) s) := by
  obtain ⟨op, b1, b2, rfl⟩ := exists_instrOf i
  have hle := registerOperands_le_operandCount (formatOf op)
  rw [operands_instrOf]
  rcases bad_operand_of_not_wf h with ⟨hm, h1⟩ | ⟨hm, h1, h2⟩
  · exact ⟨b1, h1, List.mem_take_iff_getElem.2 ⟨0, lt_min (by omega) (Nat.le_succ 1), rfl⟩,
      exec_instrOf_bad_first hm h1 b2⟩
  · exact ⟨b2, h2, List.mem_take_iff_getElem.2 ⟨1, lt_min (by omega) (Nat.lt_succ_self 1), rfl⟩,
      exec_instrOf_bad_second hm h1 h2⟩

/-- Everything an instruction can do: it completes, or it raises a fault that depends on no more of the state than
`pc`, and whose info value fits its kind where the instruction stands in memory (R163, R164). -/
theorem exec_completes_or_raises (i : Instr) (s : State) :
    (∃ t, Completes s i t) ∨
    ∃ f, (StandsAtPc (encode i) s → f.recordable = true) ∧
      ∀ s' : State, s'.pc = s.pc → exec i s' = .next (enterFault f s') := by
  cases hwf : i.wf with
  | false =>
    obtain ⟨b, hb, -, he⟩ := exec_of_not_wf hwf
    exact .inr ⟨.registerIndexFault b, fun _ => decide_eq_true hb, fun s' _ => he s'⟩
  | true =>
    refine (exec_cases_of_wf hwf s).imp_right ?_
    rintro ⟨r, rfl, hpc⟩
    refine ⟨.returnAddressFault (s.pc + 2), fun hat => decide_eq_true ?_, fun s' h => ?_⟩
    · have hoperand := (hat 1 _ rfl).1
      omega
    · rw [← h]
      exact execCall_no_return_address r (h.symm ▸ hpc)

/-! ### What a completed instruction does to the run state, the fault record, memory and `pc` -/

theorem Completes.fault_eq (h : Completes s i t) : t.fault = s.fault := by
  cases h <;> rfl

theorem Completes.status_ne_faulted (h : Completes s i t) (hs : s.status = .running) : t.status ≠ .faulted := by
  cases h with
  | halt => exact nofun
  | _ => exact ne_of_eq_of_ne hs nofun

/-- Only PUSH and CALL write memory, to one cell. -/
theorem Completes.mem_cases (h : Completes s i t) :
    t.mem = s.mem ∨ ∃ v, t.mem = Memory.write s.mem (pushAddress s) v := by
  cases h with
  | push r => exact .inr ⟨_, rfl⟩
  | call r h => exact .inr ⟨_, rfl⟩
  | _ => exact .inl rfl

theorem Completes.memory_wf (h : Completes s i t) (hwf : Memory.wf s.mem = true) : Memory.wf t.mem = true := by
  rcases h.mem_cases with hm | ⟨v, hm⟩ <;> rw [hm]
  · exact hwf
  · exact Memory.wf_write hwf (Nat.lt_succ_of_le (pushAddress_le s)) v

/-- An instruction that stands in memory ends at 255 at most, and so it moves `pc` to 256 at most (R37, R96). -/
theorem Completes.pc_le (h : Completes s i t) (hat : StandsAtPc (encode i) s) : t.pc ≤ 256 := by
  cases h with
  | halt => exact Nat.succ_le_succ (hat 0 _ rfl).1
  | printRegister r | push r | pop r => exact Nat.succ_le_succ (hat 1 _ rfl).1
  | loadImmediate r imm | multiply d r | add d r => exact Nat.succ_le_succ (hat 2 _ rfl).1
  | call r h => exact (BitVec.isLt _).le
  | ret => exact (BitVec.isLt _).le

/-- A fault of the fetch has an info value that fits its kind (R161, R162). -/
theorem recordable_of_fetch_error {f : FaultKind} (hpc : s.pc ≤ 256) (h : fetch c s = .error f) :
    f.recordable = true := by
  rcases fetch_cases c s with ⟨hgt, hf⟩ | ⟨-, -, -, hf⟩ | ⟨-, -, hop, hf⟩ | ⟨_, -, -, -, -, hf⟩ | ⟨op, -, -, -, hf⟩ <;>
    rw [h] at hf <;> cases hf
  · exact decide_eq_true (.inl (by omega))
  · rfl
  · exact Option.isNone_iff_eq_none.2 hop
  · rfl

/-- Everything a step can do (R97): it enters a fault, or the instruction that stands at `pc` completes. -/
theorem stepWith_completes_or_faults (h : stepWith c s = .next t) :
    s.status = .running ∧
      ((∃ f, (s.pc ≤ 256 → f.recordable = true) ∧ t = enterFault f s) ∨
        ∃ i, StandsAtPc (encode i) s ∧ Completes s i t) := by
  obtain ⟨hs, hcases⟩ := stepWith_next_cases h
  refine ⟨hs, ?_⟩
  rcases hcases with ⟨f, hf, rfl⟩ | ⟨i, hf, he⟩
  · exact .inl ⟨f, fun hpc => recordable_of_fetch_error hpc hf, rfl⟩
  · have hat := standsAtPc_of_fetch_ok hf
    rcases exec_completes_or_raises i s with ⟨t', hC⟩ | ⟨f, hrec, hraise⟩
    · obtain rfl : t' = t := by injection hC.exec.symm.trans he
      exact .inr ⟨i, hat, hC⟩
    · obtain rfl : enterFault f s = t := by injection (hraise s rfl).symm.trans he
      exact .inl ⟨f, fun _ => hrec hat, rfl⟩

/-- A step that does not fault completes the instruction that stands at `pc`. -/
theorem stepWith_completes (h : stepWith c s = .next t) (ht : t.status ≠ .faulted) :
    ∃ i, StandsAtPc (encode i) s ∧ Completes s i t := by
  obtain ⟨-, ⟨f, -, rfl⟩ | hC⟩ := stepWith_completes_or_faults h
  · exact absurd rfl ht
  · exact hC

/-! ### The invariant -/

/-- Fault entry from a RUNNING state keeps the invariant, if the info value fits the kind (R166). -/
theorem State.Inv.enterFault (hinv : s.Inv) {f : FaultKind} (hf : f.recordable = true) :
    (Sys2Proof.Machine.enterFault f s).Inv where
  memory_wf := hinv.memory_wf
  pc_le := hinv.pc_le
  fault_none_iff := ⟨nofun, fun h => absurd rfl h⟩
  fault_record := by
    rintro _ ⟨⟩
    exact ⟨rfl, hf⟩

/-- An instruction that completes where it stands keeps the invariant. -/
theorem State.Inv.completes (hinv : s.Inv) (hs : s.status = .running) (hat : StandsAtPc (encode i) s)
    (h : Completes s i t) : t.Inv := by
  have hnone : t.fault = none := by
    rw [h.fault_eq, hinv.fault_none_iff, hs]
    exact nofun
  exact
    { memory_wf := h.memory_wf hinv.memory_wf
      pc_le := h.pc_le hat
      fault_none_iff := ⟨fun _ => h.status_ne_faulted hs, fun _ => hnone⟩
      fault_record := fun f hf => absurd (hnone.symm.trans hf) nofun }

end Sys2Proof.Machine

namespace Sys2Proof.Claims

open Sys2Proof.Machine

/-- Settles O35: fault entry keeps the invariant because every check raises its fault with an info value of its kind;
a completed instruction keeps it because it stood in memory. -/
theorem stepKeepsTheInvariant : Obligations.StepKeepsTheInvariant := by
  intro c s t hinv h
  obtain ⟨hs, ⟨f, hf, rfl⟩ | ⟨i, hat, hC⟩⟩ := stepWith_completes_or_faults h
  · exact hinv.enterFault (hf hinv.pc_le)
  · exact hinv.completes hs hat hC

/-- Settles O10: a completed instruction never ends FAULTED, so the step was fault entry. -/
theorem faultingStepChangesNothingElse : Obligations.FaultingStepChangesNothingElse := by
  intro c s t h ht
  obtain ⟨hs, ⟨f, -, rfl⟩ | ⟨i, -, hC⟩⟩ := stepWith_completes_or_faults h
  · exact ⟨f, rfl⟩
  · exact absurd ht (hC.status_ne_faulted hs)

/-- Settles O17: an ill-formed instruction raises the fault with one of its bytes; a well-formed one completes, in a
state that is not FAULTED, or raises ReturnAddressFault. -/
theorem illFormedInstructionsRaiseRegisterIndexFault :
    Obligations.IllFormedInstructionsRaiseRegisterIndexFault := by
  intro i s hs
  have not_wf : ∀ b, exec i s = .next (faulted (.registerIndexFault b) s) → i.wf = false := fun b hb => by
    refine Bool.eq_false_iff.2 fun hwf => ?_
    rcases exec_cases_of_wf hwf s with ⟨t, hC⟩ | ⟨r, rfl, hpc⟩
    · obtain rfl : t = faulted _ s := by injection hC.exec.symm.trans hb
      exact hC.status_ne_faulted hs rfl
    · cases (execCall_no_return_address r hpc).symm.trans hb
  refine ⟨⟨fun hwf => ?_, fun ⟨b, hb⟩ => not_wf b hb⟩, fun b hb => ?_⟩
  · obtain ⟨b, -, -, he⟩ := exec_of_not_wf hwf
    exact ⟨b, he s⟩
  · obtain ⟨b', hb', hmem, he⟩ := exec_of_not_wf (not_wf b hb)
    obtain rfl : b' = b := by cases (he s).symm.trans hb; rfl
    exact ⟨hb', hmem⟩

end Sys2Proof.Claims
end

section
/-! PROOFS. What a step can change, field by field: `pc`, the output events, memory and the registers.  Each claim is
read off the completed instruction, whose opcode and operand bytes stand at `pc`; fault entry changes none of them. -/

namespace Sys2Proof.Claims

open Sys2Proof.Machine

variable {c : Config} {s t : State} {i : Instr}

theorem StandsAtPc.head {b0 : Byte} {bytes : List Byte} (h : StandsAtPc (b0 :: bytes) s) : M s s.pc = b0 :=
  (h 0 b0 rfl).2

theorem StandsAtPc.second {b0 b1 : Byte} {bytes : List Byte} (h : StandsAtPc (b0 :: b1 :: bytes) s) :
    M s (s.pc + 1) = b1 :=
  (h 1 b1 rfl).2

/-- Settles O11: the opcode that stands at `pc` selects one row of the table, and the completed instruction has moved
`pc` as that row says. -/
theorem programCounterFollowsTheTable : Obligations.ProgramCounterFollowsTheTable := by
  intro c s t h ht
  obtain ⟨i, hat, hC⟩ := stepWith_completes h ht
  cases hC with
  | halt => simp [hat.head]
  | loadImmediate r imm => simp [hat.head]
  | multiply d r => simp [hat.head]
  | add d r => simp [hat.head]
  | printRegister r => simp [hat.head]
  | push r => simp [hat.head]
  | pop r => simp [hat.head]
  | call r h => simp [hat.head, hat.second]
  | ret => simp [hat.head, spAddress_eq_x, M_eq]

/-- Settles O12: of the completed instructions PRINT_REGISTER alone emits, and what it emits is the register that its
operand byte, which stands at `pc + 1`, names. -/
theorem onlyPrintRegisterEmits : Obligations.OnlyPrintRegisterEmits := by
  intro c s t h
  obtain ⟨-, ⟨f, -, rfl⟩ | ⟨i, hat, hC⟩⟩ := stepWith_completes_or_faults h
  · exact .inl rfl
  · cases hC with
    | printRegister r =>
      right
      rw [hat.second, x_byteOfReg]
      exact ⟨hat.head, byteOfReg_toNat_le r, rfl⟩
    | _ => exact .inl rfl

/-- A cell that differs after a push is the one the decremented stack pointer points to. -/
theorem eq_pushAddress_of_M_ne {v : Byte} {p a : Nat} (h : M (pushed v p s) a ≠ M s a) :
    a = pushAddress s ∧ a = (x s 7 - 1#8).toNat := by
  have hcell : a = pushAddress s := by
    by_contra hne
    exact h (Memory.read_write_of_ne s.mem v hne)
  exact ⟨hcell, hcell.trans (pushAddress_eq s)⟩

/-- Settles O13: the completed instructions other than PUSH and CALL leave memory as it is, and those two write the one
cell that the decremented stack pointer points to. -/
theorem onlyPushAndCallWriteMemory : Obligations.OnlyPushAndCallWriteMemory := by
  intro c s t a h ha
  obtain ⟨-, ⟨f, -, rfl⟩ | ⟨i, hat, hC⟩⟩ := stepWith_completes_or_faults h
  · exact absurd rfl ha
  · cases hC with
    | push r => exact ⟨.inl hat.head, eq_pushAddress_of_M_ne ha⟩
    | call r _ => exact ⟨.inr hat.head, eq_pushAddress_of_M_ne ha⟩
    | _ => exact absurd rfl ha

theorem RegistersSameBut.mem_of_ne {written : List Nat} {j : Nat} (h : RegistersSameBut written s t) (hj : j ≤ 7)
    (hne : x t j ≠ x s j) : j ∈ written := by
  by_contra hnot
  exact hne (h j hj hnot)

/-- A register that differs after one register was written is the one written. -/
theorem eq_of_x_setPc_writeReg_ne {d : Reg} {v : Byte} {p j : Nat} (hj : j ≤ 7)
    (hne : x (setPc p (writeReg d v s)) j ≠ x s j) : j = (byteOfReg d).toNat :=
  List.mem_singleton.1 ((registersSameBut_setPc_writeReg s d v p).mem_of_ne hj hne)

/-- A register that differs after a push is the stack pointer. -/
theorem eq_seven_of_x_pushed_ne {v : Byte} {p j : Nat} (hj : j ≤ 7) (hne : x (pushed v p s) j ≠ x s j) : j = 7 := by
  obtain ⟨-, hframe, -⟩ := push_effect v p (s := s) rfl
  exact List.mem_singleton.1 (hframe.mem_of_ne hj hne)

/-- Settles O14: the completed instruction has written the register its first operand byte, which stands at `pc + 1`,
names, or the stack pointer, or for POP both. -/
theorem onlyTheNamedRegistersChange : Obligations.OnlyTheNamedRegistersChange := by
  intro c s t j h hj hne
  obtain ⟨-, ⟨f, -, rfl⟩ | ⟨i, hat, hC⟩⟩ := stepWith_completes_or_faults h
  · exact absurd rfl hne
  · cases hC with
    | halt => exact absurd rfl hne
    | printRegister r => exact absurd rfl hne
    | loadImmediate r imm => exact .inl ⟨hat.second ▸ eq_of_x_setPc_writeReg_ne hj hne, .inl hat.head⟩
    | add d r => exact .inl ⟨hat.second ▸ eq_of_x_setPc_writeReg_ne hj hne, .inr (.inl hat.head)⟩
    | multiply d r => exact .inl ⟨hat.second ▸ eq_of_x_setPc_writeReg_ne hj hne, .inr (.inr (.inl hat.head))⟩
    | push r => exact .inr ⟨eq_seven_of_x_pushed_ne hj hne, .inl hat.head⟩
    | pop r =>
      rcases List.mem_pair.1 ((registersSameBut_pop s r _ _).mem_of_ne hj hne) with hr | h7
      · exact .inl ⟨hat.second ▸ hr, .inr (.inr (.inr hat.head))⟩
      · exact .inr ⟨h7, .inr (.inl hat.head)⟩
    | call r _ => exact .inr ⟨eq_seven_of_x_pushed_ne hj hne, .inr (.inr (.inl hat.head))⟩
    | ret => exact .inr ⟨eq_of_x_setPc_writeReg_ne (d := .r7) hj hne, .inr (.inr (.inr hat.head))⟩

end Sys2Proof.Claims
end

section
/-! PROOFS. What a step does not read: the output events, and memory beyond the fetched cells and the cell at the stack
pointer.  Both are statements about two runs; one lemma carries a relation of the states over a step. -/

namespace Sys2Proof.Machine

variable {c : Config} {s s' t : State}

theorem memRead_congr {a : Nat} (h : Memory.read s'.mem a = Memory.read s.mem a) : memRead a s' = memRead a s := by
  rw [memRead, memRead, h]

theorem fetchBytes_congr {a n : Nat} (h : ∀ k < n, Memory.read s'.mem (a + k) = Memory.read s.mem (a + k)) :
    fetchBytes s' a n = fetchBytes s a n := by
  induction n generalizing a with
  | zero => rfl
  | succ n ih =>
    have htail : fetchBytes s' (a + 1) n = fetchBytes s (a + 1) n :=
      ih fun k hk => by rw [Nat.add_assoc, Nat.add_comm 1 k]; exact h (k + 1) (Nat.succ_lt_succ hk)
    rw [fetchBytes, fetchBytes, memRead_congr (a := a) (h 0 n.succ_pos), htail]

/-- The fetch reads `pc` and the cells at `pc`, `pc + 1` and `pc + 2`, and nothing else (R52, R91, R93). -/
theorem fetch_congr (hpc : s'.pc = s.pc)
    (h : ∀ k ≤ 2, Memory.read s'.mem (s.pc + k) = Memory.read s.mem (s.pc + k)) : fetch c s' = fetch c s := by
  have hops : ∀ n ≤ 2, fetchBytes s' (s.pc + 1) n = fetchBytes s (s.pc + 1) n := fun n hn =>
    fetchBytes_congr fun k hk => by rw [Nat.add_assoc]; exact h (1 + k) (by omega)
  have hspec : speculativeCount c ≤ 2 := by
    rw [speculativeCount]
    split <;> omega
  have hop : memRead s.pc s' = memRead s.pc s := memRead_congr (h 0 (Nat.zero_le 2))
  simp only [fetch, hpc, hop, hops _ hspec, hops _ (operandCount_le_two _)]

/-- A relation that fault entry and every completed instruction carry from one state to another with the same run state,
`pc` and fetched cells is carried by the step. -/
theorem stepWith_transport {R : State → State → Prop} (hstatus : s'.status = s.status) (hpc : s'.pc = s.pc)
    (hcells : ∀ k ≤ 2, Memory.read s'.mem (s.pc + k) = Memory.read s.mem (s.pc + k))
    (hfault : ∀ f, R (enterFault f s) (enterFault f s'))
    (hcomplete : ∀ i t, Completes s i t → ∃ t', Completes s' i t' ∧ R t t') (h : stepWith c s = .next t) :
    ∃ t', stepWith c s' = .next t' ∧ R t t' := by
  have hfetch : fetch c s' = fetch c s := fetch_congr hpc hcells
  obtain ⟨hs, ⟨f, hf, rfl⟩ | ⟨i, hf, he⟩⟩ := stepWith_next_cases h
  · exact ⟨_, stepWith_of_fault (hstatus.trans hs) (hfetch.trans hf), hfault f⟩
  · rw [stepWith_of_fetch (hstatus.trans hs) (hfetch.trans hf)]
    rcases exec_completes_or_raises i s with ⟨u, hC⟩ | ⟨f, -, hraise⟩
    · obtain rfl : u = t := by injection hC.exec.symm.trans he
      obtain ⟨t', hC', hR⟩ := hcomplete i u hC
      exact ⟨t', hC'.exec, hR⟩
    · obtain rfl : enterFault f s = t := by injection (hraise s rfl).symm.trans he
      exact ⟨_, hraise s' hpc, hfault f⟩

/-- An instruction completes in the same way with other output events before it. -/
theorem Completes.prepend_out {i : Instr} (h : Completes s i t) (events : List Byte) :
    Completes { s with out := events ++ s.out } i { t with out := events ++ t.out } := by
  cases h with
  | halt => exact .halt
  | loadImmediate r imm => exact .loadImmediate r imm
  | printRegister r =>
    rw [setPc_out, emit_out, ← List.append_assoc]
    exact .printRegister r
  | multiply d r => exact .multiply d r
  | add d r => exact .add d r
  | push r => exact .push r
  | pop r => exact .pop r
  | call r h => exact .call r h
  | ret => exact .ret

/-- The same write to two canonical memories keeps every cell equal on which they agree. -/
theorem Memory.read_write_congr {m m' : Memory} (h : Memory.wf m = true) (h' : Memory.wf m' = true) {a b : Nat}
    {v : Byte} (heq : Memory.read m' b = Memory.read m b) :
    Memory.read (Memory.write m' a v) b = Memory.read (Memory.write m a v) b := by
  rw [Memory.read_write h, Memory.read_write h', heq]

/-- An instruction completes in the same way with another memory that has the same byte at the stack pointer: what it
reads from memory is that byte, and it writes what it would have written. -/
theorem Completes.with_mem {i : Instr} (h : Completes s i t) {m : Memory} (hs : Memory.wf s.mem = true)
    (hm : Memory.wf m = true) (hsp : Memory.read m (spAddress s) = Memory.read s.mem (spAddress s)) :
    ∃ m', Completes { s with mem := m } i { t with mem := m' } ∧
      ∀ a, Memory.read m a = Memory.read s.mem a → Memory.read m' a = Memory.read t.mem a := by
  cases h with
  | halt => exact ⟨m, .halt, fun _ => id⟩
  | loadImmediate r imm => exact ⟨m, .loadImmediate r imm, fun _ => id⟩
  | printRegister r => exact ⟨m, .printRegister r, fun _ => id⟩
  | multiply d r => exact ⟨m, .multiply d r, fun _ => id⟩
  | add d r => exact ⟨m, .add d r, fun _ => id⟩
  | push r => exact ⟨_, .push r, fun _ => Memory.read_write_congr hs hm⟩
  | pop r =>
    refine ⟨m, ?_, fun _ => id⟩
    rw [← hsp]
    exact .pop r
  | call r h => exact ⟨_, .call r h, fun _ => Memory.read_write_congr hs hm⟩
  | ret =>
    refine ⟨m, ?_, fun _ => id⟩
    rw [← hsp]
    exact .ret

end Sys2Proof.Machine

namespace Sys2Proof.Claims

open Sys2Proof.Machine

/-- The second state is the first with these output events before its own. -/
def PrependsOut (events : List Byte) (t t' : State) : Prop := t' = { t with out := events ++ t.out }

/-- The second state is the first but for its memory, which reads the same at the addresses where `agree` holds. -/
def SameButMemory (agree : Nat → Prop) (t t' : State) : Prop :=
  ∃ m', t' = { t with mem := m' } ∧ ∀ a, agree a → Memory.read m' a = M t a

/-- Settles O15: the events before a step stand before the events after it, in fault entry and in every completed
instruction; an engine that is not RUNNING stops for its run state alone. -/
theorem outputHistoryIsNeverRead : Obligations.OutputHistoryIsNeverRead := by
  intro c s events
  by_cases hs : s.status = .running
  · obtain ⟨t, h⟩ := exists_stepWith_next hs c
    obtain ⟨t', h', rfl⟩ := stepWith_transport (s := s) (s' := { s with out := events ++ s.out })
      (R := PrependsOut events) rfl rfl (fun _ _ => rfl) (fun _ => rfl)
      (fun i t hC => ⟨_, hC.prepend_out events, rfl⟩) h
    rw [h]
    exact h'
  · obtain ⟨f, h, h'⟩ := exists_stepWith_fault (s' := { s with out := events ++ s.out }) hs rfl c c
    rw [h]
    exact h'

/-- Settles O16: the fetch reads the three cells from `pc` up, and an instruction the cell at the stack pointer. -/
theorem stepReadsOnlyFetchAndStackCells : Obligations.StepReadsOnlyFetchAndStackCells := by
  intro c s t m hs hm hcells h
  have hfetch : ∀ k ≤ 2, Memory.read m (s.pc + k) = Memory.read s.mem (s.pc + k) := fun k hk =>
    hcells _ (by interval_cases k <;> simp)
  have hsp : Memory.read m (spAddress s) = Memory.read s.mem (spAddress s) :=
    hcells _ (.inr (.inr (.inr rfl)))
  obtain ⟨_, h', m', rfl, hagree⟩ := stepWith_transport (s := s) (s' := { s with mem := m })
    (R := SameButMemory fun a => Memory.read m a = M s a) rfl rfl hfetch (fun f => ⟨m, rfl, fun _ => id⟩)
    (fun i t hC => by
      obtain ⟨m', hC', hagree⟩ := hC.with_mem hs hm hsp
      exact ⟨_, hC', m', rfl, hagree⟩) h
  exact ⟨m', h', hagree⟩

end Sys2Proof.Claims
end

section
/-! PROOFS. PRINT_REGISTER and CALL (spec/41_register_output.md R111, spec/44_call_return.md R150), and the claims over
two and three instructions in a row. -/

namespace Sys2Proof.Claims

open Sys2Proof.Machine

variable {s : State}

/-- Settles O20: an operand byte up to 7 names a register, whose value is emitted and nothing else is changed but `pc`;
above 7 the check raises; the opcode has one operand byte. -/
theorem printRegisterEmitsTheRegister : Obligations.PrintRegisterEmitsTheRegister := by
  intro c s
  refine ⟨fun _ => rfl, fun ra hra => ?_, fun ra hra => execPrintRegister_bad hra s,
    addressFaults_of_opcode (op := .printRegister) rfl c s⟩
  obtain ⟨r, rfl⟩ := exists_reg_of_toNat_le hra
  refine ⟨_, execPrintRegister_eq r s, ?_, registersSameBut_of (written := []) fun _ _ => rfl, fun _ => rfl, ⟨rfl, rfl⟩,
    rfl⟩
  rw [x_byteOfReg, setPc_out, emit_out]

/-- A return address that fits a memory cell is stored as it is (R164). -/
theorem trunc8_toNat_of_le {n : Nat} (h : n ≤ 255) : (trunc8 n).toNat = n :=
  Nat.mod_eq_of_lt (Nat.lt_succ_of_le h)

/-- Settles O25: CALL is a push of the return address, with `pc` from the register after the decrement, which is what it
holds in the end; the register check stands before that of the return address; the opcode has one operand byte. -/
theorem callPushesTheReturnAddress : Obligations.CallPushesTheReturnAddress := by
  intro c s
  refine ⟨fun _ => rfl, fun ra hra hpc => ?_, fun ra hra => execCall_bad hra s, fun ra hra hpc => ?_,
    addressFaults_of_opcode (op := .call) rfl c s⟩
  · obtain ⟨r, rfl⟩ := exists_reg_of_toNat_le hra
    refine ⟨_, execCall_eq r hpc, ?_⟩
    obtain ⟨hsp, hframe, haddr, hcell, hmem, hout, hrun, hto⟩ :=
      push_effect (s := s) (trunc8 (s.pc + 2)) (readReg r (decSp s)).toNat rfl
    refine ⟨hsp, hframe, haddr, fun hwf => ?_, hmem, hout, hrun, ?_⟩
    · rw [hcell hwf, trunc8_toNat_of_le hpc]
    · rw [hto, x_byteOfReg]
      rfl
  · obtain ⟨r, rfl⟩ := exists_reg_of_toNat_le hra
    exact execCall_no_return_address r hpc

/-! ### Two and three instructions in a row -/

/-- Settles O27: PRINT_REGISTER reads back the register that LOAD_IMMEDIATE wrote. -/
theorem loadThenPrintEmitsTheImmediate : Obligations.LoadThenPrintEmitsTheImmediate := by
  intro s ra imm hra
  obtain ⟨r, rfl⟩ := exists_reg_of_toNat_le hra
  refine ⟨_, _, execLoadImmediate_eq r imm s, execPrintRegister_eq r _, ?_⟩
  simp only [setPc_out, emit_out, writeReg_out, readReg_setPc, readReg_writeReg_self]

/-- Settles O28: the second load leaves its value in `rb`, and in `ra` the first load's value unless it is the same
register; the ALU combines what the two registers then hold. -/
theorem aluAfterTwoLoads : Obligations.AluAfterTwoLoads := by
  intro s ra rb v1 v2 hra hrb
  obtain ⟨d, rfl⟩ := exists_reg_of_toNat_le hra
  obtain ⟨r, rfl⟩ := exists_reg_of_toNat_le hrb
  refine ⟨_, _, execLoadImmediate_eq d v1 s, execLoadImmediate_eq r v2 _, _, _, execAdd_eq d r _,
    execMultiply_eq d r _, fun hne => ?_, fun heq => ?_⟩
  · have hdr : d ≠ r := fun h => hne (congrArg byteOfReg h)
    rw [x_setPc_aluApply, x_setPc_aluApply]
    simp [readReg_writeReg, hdr, aluExact]
  · obtain rfl : d = r := byteOfReg_injective (congrArg BitVec.toNat heq)
    rw [x_setPc_aluApply, x_setPc_aluApply]
    simp [aluExact]

/-- The byte PUSH stores: the register, or for r7 the decremented stack pointer (R141, D9). -/
theorem readReg_decSp (r : Reg) (s : State) :
    readReg r (decSp s) =
      if (byteOfReg r).toNat = 7 then x s 7 - 1#8 else x s (byteOfReg r).toNat := by
  split
  case isTrue h =>
    obtain rfl : r = .r7 := byteOfReg_injective h
    exact readReg_r7_decSp s
  case isFalse h =>
    have hr : r ≠ .r7 := by rintro rfl; exact h rfl
    rw [x_byteOfReg, readReg_decSp_of_ne s hr]

/-- A push leaves the pushed byte where the stack pointer then points to. -/
theorem read_pushed_spAddress (hwf : Memory.wf s.mem = true) (v : Byte) (p : Nat) :
    Memory.read (pushed v p s).mem (spAddress (pushed v p s)) = v :=
  Memory.read_write_self_from hwf _ v

/-- Taking a byte off the stack moves the stack pointer back to where it was before the push. -/
theorem readReg_r7_pushed_add_one (v : Byte) (p : Nat) (s : State) : readReg .r7 (pushed v p s) + 1#8 = x s 7 := by
  rw [readReg_pushed, readReg_r7_decSp, BitVec.sub_add_cancel, x_seven]

/-- Settles O29: POP reads the byte that PUSH left at the stack pointer; the increment undoes the decrement, except in
POP r7, where it adds one to the byte just read. -/
theorem popAfterPushRestores : Obligations.PopAfterPushRestores := by
  intro s ra rb hwf hra hrb
  obtain ⟨q, rfl⟩ := exists_reg_of_toNat_le hra
  obtain ⟨r, rfl⟩ := exists_reg_of_toNat_le hrb
  have hpop := execPop_eq r (pushed (readReg q (decSp s)) (s.pc + 2) s)
  rw [read_pushed_spAddress hwf] at hpop
  refine ⟨_, _, execPush_eq q s, hpop, _, readReg_decSp q s, fun hr => ?_, fun hr => ?_⟩
  · have hr7 : r ≠ .r7 := by rintro rfl; exact hr rfl
    constructor
    · rw [x_byteOfReg, readReg_setPc, readReg_incSp_of_ne _ hr7, readReg_writeReg_self]
    · rw [x_seven, readReg_setPc, readReg_r7_incSp, readReg_writeReg, if_neg hr7.symm, readReg_r7_pushed_add_one]
  · obtain rfl : r = .r7 := byteOfReg_injective hr
    rw [x_seven, readReg_setPc, readReg_r7_incSp, readReg_writeReg_self]

/-- Settles O30: CALL leaves the return address at the stack pointer, and RETURN reads the byte there and increments the
stack pointer again. -/
theorem returnAfterCallResumes : Obligations.ReturnAfterCallResumes := by
  intro s ra hwf hra hpc
  obtain ⟨r, rfl⟩ := exists_reg_of_toNat_le (by omega : ra.toNat ≤ 7)
  have hr : r ≠ .r7 := by rintro rfl; exact absurd hra (by decide)
  refine ⟨_, execCall_eq r (by omega), ?_, fun u hsp hcell => ⟨_, execRet_eq u, ?_, ?_⟩⟩
  · rw [x_byteOfReg, ← readReg_decSp_of_ne s hr]
  · have hbyte : Memory.read u.mem (spAddress u) = trunc8 (s.pc + 2) := by
      rw [spAddress_eq_x, hsp]
      exact hcell.trans (read_pushed_spAddress hwf _ _)
    rw [setPc_pc, hbyte, trunc8_toNat_of_le (by omega)]
  · rw [x_seven, readReg_setPc, readReg_r7_incSp, ← x_seven, hsp]
    exact readReg_r7_pushed_add_one _ _ s

/-- Settles O31: the pushed byte is the whole encoding of `i`, and it stands where `pc` points to after the PUSH. -/
theorem pushedByteIsFetchedNext : Obligations.PushedByteIsFetchedNext := by
  intro s ra i hwf hs hra haddr he
  obtain ⟨r, rfl⟩ := exists_reg_of_toNat_le hra
  rw [← readReg_decSp] at he
  refine ⟨pushed (readReg r (decSp s)) (s.pc + 2) s, execPush_eq r s, step_of_standsAtPc hs ?_⟩
  rw [he]
  intro k b hk
  obtain ⟨rfl, rfl⟩ : k = 0 ∧ readReg r (decSp s) = b := by
    cases k with
    | zero => exact ⟨rfl, Option.some.inj hk⟩
    | succ k => cases hk
  rw [Nat.add_zero, pushed_pc, ← haddr]
  exact ⟨pushAddress_le s, read_pushed_spAddress hwf _ _⟩

end Sys2Proof.Claims
end

section
/-! PROOFS. Reset, program load, runs and the host's reading of a stop (spec/70_reset_and_hazards.md,
spec/60_exceptions.md section 5). -/

namespace Sys2Proof.Machine

variable {c : Config} {s t : State} {image : List Byte}

theorem load_of_le (h : image.length ≤ 256) (s : State) :
    load image s = .next { s with mem := storeBytes s.mem 0 image } :=
  if_pos h

theorem load_of_gt (h : 256 < image.length) (s : State) : load image s = .refused (.imageTooLong image.length) :=
  if_neg (Nat.not_le_of_lt h)

/-- What every address reads as after the image was stored from address 0 up. -/
theorem read_storeBytes_zero {m : Memory} (hwf : Memory.wf m = true) (h : image.length ≤ 256) (a : Nat) :
    Memory.read (storeBytes m 0 image) a = if h : a < image.length then image[a] else Memory.read m a := by
  rw [read_storeBytes hwf 0 image (by rw [Nat.zero_add]; exact h), if_pos a.zero_le, Nat.sub_zero]
  split
  case isTrue hlt => rw [List.getElem?_eq_getElem hlt, Option.getD_some]
  case isFalse hge => rw [List.getElem?_eq_none (Nat.le_of_not_lt hge), Option.getD_none]

theorem wf_storeBytes_zero {m : Memory} (hwf : Memory.wf m = true) (h : image.length ≤ 256) :
    Memory.wf (storeBytes m 0 image) = true :=
  wf_storeBytes hwf 0 image (by rw [Nat.zero_add]; exact h)

theorem reset_inv : State.reset.Inv where
  memory_wf := reset_memory_wf
  pc_le := Nat.zero_le _
  fault_none_iff := ⟨fun _ => nofun, fun _ => rfl⟩
  fault_record := nofun

/-- A load that is accepted keeps the invariant (R193). -/
theorem State.Inv.load (hinv : s.Inv) (h : load image s = .next t) : t.Inv := by
  rcases Nat.lt_or_ge 256 image.length with hgt | hle
  · rw [load_of_gt hgt] at h
    cases h
  · rw [load_of_le hle] at h
    cases h
    exact { hinv with memory_wf := wf_storeBytes_zero hinv.memory_wf hle }

/-- The invariant holds at reset, is kept by the load and by every step, so it holds in every state of a run. -/
theorem Reachable.inv (h : Reachable c s) : s.Inv := by
  induction h with
  | boot h => exact reset_inv.load h
  | step _ h ih => exact Claims.stepKeepsTheInvariant c _ _ ih h

/-! ### Runs -/

theorem runWith_of_not_running (hs : s.status ≠ .running) (c : Config) (n : Nat) : runWith c n s = .ended s := by
  cases n with
  | zero => exact if_neg hs
  | succ n =>
    obtain ⟨f, h, -⟩ := exists_stepWith_fault hs rfl c c
    rw [runWith, h]

theorem runWith_succ (h : stepWith c s = .next t) (n : Nat) : runWith c (n + 1) s = runWith c n t := by
  rw [runWith, h]

/-- Everything a run can answer (R98): it is out of fuel in a RUNNING state, or it has ended in a state that is not
RUNNING, and more fuel gives the same end. -/
theorem runWith_cases (c : Config) (n : Nat) (s : State) :
    (∃ t, t.status = .running ∧ runWith c n s = .notEnded t) ∨
    ∃ t, t.status ≠ .running ∧ ∀ k, runWith c (n + k) s = .ended t := by
  induction n generalizing s with
  | zero =>
    by_cases hs : s.status = .running
    · exact .inl ⟨s, hs, if_pos hs⟩
    · exact .inr ⟨s, hs, fun k => runWith_of_not_running hs c _⟩
  | succ n ih =>
    by_cases hs : s.status = .running
    · obtain ⟨u, hu⟩ := exists_stepWith_next hs c
      simp only [Nat.succ_add, runWith_succ hu]
      exact ih u
    · exact .inr ⟨s, hs, fun k => runWith_of_not_running hs c _⟩

/-- Only a RUNNING state has no observation (R195). -/
theorem observation_eq_none_iff (t : State) : observation t = none ↔ t.status = .running := by
  cases ht : t.status <;> simp [observation, ht]

/-! ### The bytes of the host's dump -/

theorem nextBytes_of_le (h : s.pc ≤ 253) :
    nextBytes s = [s.pc, s.pc + 1, s.pc + 2].map (Memory.read s.mem) := by
  rw [nextBytes, List.filter_eq_self.2]
  intro a ha
  refine (inMemory_iff a).2 ?_
  simp only [List.mem_cons, List.not_mem_nil, or_false] at ha
  omega

theorem nextBytes_of_gt (h : 256 ≤ s.pc) : nextBytes s = [] := by
  rw [nextBytes, List.filter_eq_nil_iff.2, List.map_nil]
  intro a ha
  rw [inMemory_iff]
  simp only [List.mem_cons, List.not_mem_nil, or_false] at ha
  omega

end Sys2Proof.Machine

namespace Sys2Proof.Claims

open Sys2Proof.Machine

/-- Settles O32: the reset input answers the reset state, whose fields are the table's values. -/
theorem resetLeavesTheGivenValues : Obligations.ResetLeavesTheGivenValues := by
  refine fun s => ⟨fun i hi => ?_, rfl, rfl, Memory.read_nil, rfl, rfl, rfl, rfl⟩
  interval_cases i <;> rfl

/-- Settles O33: an image that fits is stored byte by byte at addresses the memory has; the load port refuses any
other. -/
theorem loadPlacesTheImage : Obligations.LoadPlacesTheImage := by
  intro image s hwf
  refine ⟨fun h => ⟨_, load_of_le h s, wf_storeBytes_zero hwf h, read_storeBytes_zero hwf h, rfl, rfl, rfl, rfl, rfl⟩,
    fun h => load_of_gt h s⟩

/-- Settles O34: the empty memory is canonical and reset leaves no fault record. -/
theorem resetMeetsTheInvariant : Obligations.ResetMeetsTheInvariant := reset_inv

/-- Settles O36: the invariant holds along every run, and no info value makes AluUnsupported recordable. -/
theorem everyReachableStateMeetsTheInvariant : Obligations.EveryReachableStateMeetsTheInvariant := by
  intro c s h
  refine ⟨h.inv, fun p hp => ?_⟩
  obtain ⟨-, hrec⟩ := h.inv.fault_record _ hp
  cases hrec

/-- Settles O37: by induction on the fuel, a run is out of fuel in a state that steps on, or has ended, for good, in one
that takes no step. -/
theorem endedRunsStayEnded : Obligations.EndedRunsStayEnded := by
  intro c n k s t
  rcases runWith_cases c n s with ⟨u, hu, hrun⟩ | ⟨u, hu, hend⟩
  · refine ⟨fun h => absurd (hrun.symm.trans h) nofun, fun h => ?_⟩
    obtain rfl : u = t := by injection hrun.symm.trans h
    exact ⟨hu, (observation_eq_none_iff u).2 hu⟩
  · refine ⟨fun h => ?_, fun h => absurd ((hend 0).symm.trans h) nofun⟩
    obtain rfl : u = t := by injection (hend 0).symm.trans h
    exact ⟨hend k, hu, mt (observation_eq_none_iff u).1 hu⟩

/-- Settles O38: the exit code and the dump are read off the run state, and the dump's bytes are those of the three
addresses that the memory has. -/
theorem hostReadsTheStop : Obligations.HostReadsTheStop := by
  intro s
  refine ⟨fun hs => ?_, fun hs => ?_, fun hs => ?_⟩
  · rw [hostExitCode, faultDump, hs]
    exact ⟨rfl, rfl⟩
  · rw [hostExitCode, faultDump, show s.status = .halted from hs]
    exact ⟨rfl, rfl⟩
  · rw [hostExitCode, faultDump, hs]
    refine ⟨rfl, _, rfl, rfl, rfl, nextBytes_of_le, fun h => ?_, fun h => ?_, nextBytes_of_gt⟩
    · rw [nextBytes, h]
      rfl
    · rw [nextBytes, h]
      rfl

end Sys2Proof.Claims
end
